-- ==== Sys2Proof/Word.lean ====
section
/-! DEFINITION. The machine's words and the fixed-width fields cut from them (spec/00_scope.md R7 to R10, R13). -/

namespace Sys2Proof

/-- One 16-bit machine word: a register value, a memory word, an instruction (R7). All arithmetic wraps. -/
abbrev Word := BitVec 16

/-- A word address in main memory, 0..8191 (R8); also the program counter's value (R33). -/
abbrev Addr := BitVec 13

/-- A 3-bit register field, 0..7 (R9). -/
abbrev RegId := BitVec 3

/-- A 3-bit opcode field (R10). -/
abbrev Opcode := BitVec 3

/-- The 4-bit function selector of a register-form word (spec/30_encoding.md R123). -/
abbrev Func := BitVec 4

/-- The raw 7-bit field of an immediate-form word (spec/30_encoding.md R124). -/
abbrev Imm7 := BitVec 7

/-- The 13-bit address field of a jump-form word (spec/30_encoding.md R125). -/
abbrev Addr13 := BitVec 13

/-- `MEM_SIZE` (R8): main memory holds 8192 words. -/
abbrev memSize : Nat := 8192

end Sys2Proof
end

