-- ==== Sys2Proof/Config.lean ====
section
/-! DEFINITION. What is fixed for a run: the cache configuration registers the host sets (spec/10_state.md R41 to R46),
the event records of the controller (R50, R51), and the one value the spec leaves open that no machine state depends on
(the printed text of an event). -/

namespace Sys2Proof

/-- The three fields of one configured level, all counted in words (R42). Unbounded naturals (log 19). -/
structure LevelConfig where
  size      : Nat
  assoc     : Nat
  blocksize : Nat
  deriving DecidableEq, Repr

/-- What a register-form word with an undefined function selector does (R46, spec/41_register_form.md R177). -/
inductive UndefFunc where
  | nop
  | refuse
  deriving DecidableEq, Repr

/-- The whole static configuration (R41 to R46). `levels` lists the configured levels, L1 first, so its length is the
spec's `cfg.levels`. -/
structure Config where
  levels        : List LevelConfig
  l2HitPromotes : Bool
  undefFunc     : UndefFunc
  deriving DecidableEq, Repr

/-- The cache identifier of an event (R51). The single cache of L1-only mode is `L1` (log 13). -/
inductive LevelId where
  | L1
  | L2
  deriving DecidableEq, Repr

/-- The outcome an event names (R51). -/
inductive Status where
  | HIT
  | MISS
  | SW
  deriving DecidableEq, Repr

/-- One record of the event stream (R51): the level consulted, the outcome, the address of the `lw` or `sw`, the accessed
word address, and the row the level computed for it. -/
structure Event where
  level  : LevelId
  status : Status
  pc     : Addr
  addr   : Addr
  row    : Nat
  deriving DecidableEq, Repr

/-- The printed text of an event (spec/00_scope.md R12, decision D16, OPEN): a constant without a body, so no proof can see
a layout. No machine state depends on it (log 17). -/
opaque Config.formatEvent : Event → String

end Sys2Proof
end

