-- ==== Sys2Proof/Syntax.lean ====
section
/-! DEFINITION. The instructions, one constructor per row of spec/opcode_table.json (spec/30_encoding.md R130, R132), and the
shapes of the decoder's outputs (R120, R135). -/

namespace Sys2Proof

/-- The instruction set. Operand names follow R130: `a` regA, `b` regB, `d` regDst, `s` source or base register (bits 12..10),
`t` destination or stored-value register (bits 9..7). Every operand has exactly its field's width. Bits the instruction ignores
(jr's bits 9..4, R133; the fields of an undefined word, R132) are carried, so that no bit of a word is lost (log 16). -/
inductive Instr where
  | add  (d a b : RegId)
  | sub  (d a b : RegId)
  | or   (d a b : RegId)
  | and  (d a b : RegId)
  | slt  (d a b : RegId)
  | jr   (a : RegId) (ignored : BitVec 6)
  | addi (t s : RegId) (imm : Imm7)
  | j    (target : Addr13)
  | jal  (target : Addr13)
  | lw   (t s : RegId) (imm : Imm7)
  | sw   (t s : RegId) (imm : Imm7)
  | jeq  (a b : RegId) (imm : Imm7)
  | slti (t s : RegId) (imm : Imm7)
  | undef5  (d a b : RegId)
  | undef6  (d a b : RegId)
  | undef7  (d a b : RegId)
  | undef9  (d a b : RegId)
  | undef10 (d a b : RegId)
  | undef11 (d a b : RegId)
  | undef12 (d a b : RegId)
  | undef13 (d a b : RegId)
  | undef14 (d a b : RegId)
  | undef15 (d a b : RegId)
  deriving DecidableEq, Repr

/-- The decoder's `format` output (R120, R122). -/
inductive Format where
  | R
  | I
  | J
  deriving DecidableEq, Repr

/-- The decoder's `kind` output (R120): one of the thirteen instructions, or `UNDEF` (R132). -/
inductive Kind where
  | add | sub | or | and | slt | jr | addi | j | jal | lw | sw | jeq | slti | UNDEF
  deriving DecidableEq, Repr

/-- The decoder's outputs as flat wires, all driven for every word (R120, decision D22). -/
structure DecoderPorts where
  opcode : Opcode
  format : Format
  regA   : RegId
  regB   : RegId
  regDst : RegId
  func   : Func
  imm7   : Imm7
  simm   : Word
  addr13 : Addr13
  kind   : Kind
  deriving DecidableEq, Repr

/-- The decoder's output as a tagged variant (R135). -/
inductive Decoded where
  | RegisterOp  (regA regB regDst : RegId) (func : Func)
  | ImmediateOp (op : Opcode) (regA regB : RegId) (simm : Word)
  | JumpOp      (op : Opcode) (addr13 : Addr13)
  deriving DecidableEq, Repr

/-- One row of the opcode map: a word is of the row when `word &&& mask = pattern` (R130). -/
structure OpcodeRow where
  kind    : Kind
  pattern : Word
  mask    : Word
  deriving DecidableEq, Repr

/-- The instruction a constructor stands for. -/
def Instr.kind : Instr → Kind
  | .add _ _ _ => .add
  | .sub _ _ _ => .sub
  | .or _ _ _ => .or
  | .and _ _ _ => .and
  | .slt _ _ _ => .slt
  | .jr _ _ => .jr
  | .addi _ _ _ => .addi
  | .j _ => .j
  | .jal _ => .jal
  | .lw _ _ _ => .lw
  | .sw _ _ _ => .sw
  | .jeq _ _ _ => .jeq
  | .slti _ _ _ => .slti
  | .undef5 _ _ _ => .UNDEF
  | .undef6 _ _ _ => .UNDEF
  | .undef7 _ _ _ => .UNDEF
  | .undef9 _ _ _ => .UNDEF
  | .undef10 _ _ _ => .UNDEF
  | .undef11 _ _ _ => .UNDEF
  | .undef12 _ _ _ => .UNDEF
  | .undef13 _ _ _ => .UNDEF
  | .undef14 _ _ _ => .UNDEF
  | .undef15 _ _ _ => .UNDEF

end Sys2Proof
end

