-- ==== Sys2Proof/Machine/State.lean ====
section
/-! DEFINITION. The state of the machine (spec/10_state.md), the ways a step can stop, and the state after reset. -/

namespace Sys2Proof.Machine

/-- The storage of registers 1 to 7. Register 0 is hard-wired to zero (R31) and has no storage (log 20): `State.reg` reads
it as 0 and `State.setReg` discards a write to it. -/
structure RegFile where
  x1 : Word
  x2 : Word
  x3 : Word
  x4 : Word
  x5 : Word
  x6 : Word
  x7 : Word
  deriving DecidableEq, Repr

/-- One cell of main memory: a word address and the word there. The hardware has no bytes (R38, spec/20_memory.md R64), so
the smallest addressable unit, and the cell, is the 16-bit word (log 7). -/
abbrev Cell := Nat × Word

/-- Main memory, 8192 words (R37): the cells that differ from what an unlisted address reads as, addresses strictly rising. -/
abbrev Memory := List Cell

/-- What an unlisted address reads as: 0 (R52, decision D10; log 6). -/
abbrev Memory.unlisted : Word := 0#16

/-- The canonical form: addresses strictly rising, every address in memory, no cell equal to what an unlisted address
reads as. Equal memories are then equal lists. -/
def Memory.wf : Memory → Bool
  | [] => true
  | [(a, v)] => a < memSize && v != Memory.unlisted
  | (a, v) :: (b, w) :: rest => a < b && v != Memory.unlisted && Memory.wf ((b, w) :: rest)

/-- One resident block of a row: its tag and its `blocksize` words (R47, spec/00_scope.md R17). -/
structure Entry where
  tag  : Nat
  data : List Word
  deriving DecidableEq, Repr

/-- A cache row (set): its entries, most recently used first (R47). -/
abbrev Row := List Entry

/-- One configured cache level: its static fields (R42) and its rows, `cfg.rowCount` of them (R47). -/
structure Level where
  cfg  : LevelConfig
  rows : List Row
  deriving DecidableEq, Repr

/-- The memory hierarchy in front of main memory; which constructor it is is the mode `cfg.levels` (R41). -/
inductive Hierarchy where
  | noCache
  | oneLevel (l1 : Level)
  | twoLevel (l1 l2 : Level)
  deriving DecidableEq, Repr

/-- The whole state of the machine (R30 to R52). -/
structure State where
  /-- registers 1 to 7 (R30 to R32) -/
  regs   : RegFile
  /-- the program counter, 0..8191 (R33, R34) -/
  pc     : Addr
  /-- main memory (R37, R38) -/
  mem    : Memory
  /-- the run-state bit (R40) -/
  halted : Bool
  /-- the mode and the configured levels, with their static fields and their rows (R41 to R43, R47) -/
  cache  : Hierarchy
  /-- whether an L2 hit on an L1 miss promotes in L2 (R46, spec/20_memory.md R86; OPEN, log 4) -/
  l2HitPromotes : Bool
  /-- what an undefined function selector does (R46; log 2) -/
  undefFunc : UndefFunc
  /-- the event stream, oldest record first (R50, R51) -/
  events : List Event
  deriving DecidableEq, Repr

/-- Why the machine stops with a fault. It has NO constructor: no instruction and no request raises an exception, and nothing
faults on this hardware (spec/60_exceptions.md R240). -/
inductive Fault where
  deriving DecidableEq, Repr

/-- Why a step has no meaning. -/
inductive Refusal where
  /-- Raised by `exec` for an instruction that has no meaning yet (none is left in this model); safe: the run stops. -/
  | notModelled (mnemonic : String)
  /-- Raised by the meanings of the ten undefined func words when the configuration says `undefFunc = refuse`
  (spec/41_register_form.md R177: "the run is refused at that step"); safe: the run stops. -/
  | undefinedFunction
  /-- Raised by `step` when a configured level breaks spec/10_state.md R45 ("refused: the model has no run for it");
  safe: the run stops. -/
  | illegalConfiguration
  deriving DecidableEq, Repr

/-- The machine at the start of a run (R52) whose host gave no cache argument (no-cache mode, spec/70_reset_and_hazards.md
R276) and an image with no lines (log 5): registers 0, pc 0, all memory 0, running, no events. `startState` of
Machine/Launch.lean is the same for every configuration and image. -/
def State.reset : State where
  regs   := ⟨0#16, 0#16, 0#16, 0#16, 0#16, 0#16, 0#16⟩
  pc     := 0#13
  mem    := []
  halted := false
  cache  := .noCache
  l2HitPromotes := false
  undefFunc := .nop
  events := []

end Sys2Proof.Machine
end

