-- ==== Sys2Proof/Machine/Configuration.lean ====
section
/-! DEFINITION. The derived row count, the legal configurations, and the configuration a state holds (spec/10_state.md R41 to
R46). -/

namespace Sys2Proof

/-- The derived, read-only row count `size div (assoc × blocksize)` (R43). -/
abbrev LevelConfig.rowCount (c : LevelConfig) : Nat := c.size / (c.assoc * c.blocksize)

/-- Legal values of one level's fields (R45, decision D7; log 11). -/
abbrev LevelConfig.Legal (c : LevelConfig) : Prop :=
  1 ≤ c.size ∧ 1 ≤ c.assoc ∧ 1 ≤ c.blocksize ∧ c.size % (c.assoc * c.blocksize) = 0

/-- Legal configurations (R45): at most two levels, each legal; nothing relates L1 to L2. -/
abbrev Config.Legal (c : Config) : Prop := c.levels.length ≤ 2 ∧ ∀ l ∈ c.levels, l.Legal

namespace Machine

/-- The configured levels, L1 first; their number is `cfg.levels` (R41). -/
def Hierarchy.levels : Hierarchy → List Level
  | .noCache => []
  | .oneLevel l1 => [l1]
  | .twoLevel l1 l2 => [l1, l2]

/-- The static configuration (R41 to R46) a state holds. -/
def State.cfg (s : State) : Config where
  levels := s.cache.levels.map Level.cfg
  l2HitPromotes := s.l2HitPromotes
  undefFunc := s.undefFunc

end Machine

end Sys2Proof
end

