-- ==== Sys2Proof/Machine/Ops.lean ====
section
/-! DEFINITION. The operations every meaning shares: registers, main memory, event emission, and the end of a step (halt test
and advance). The machine has no exception to take and none to return from (spec/60_exceptions.md R240, R244, R245). -/

namespace Sys2Proof.Machine

/-! Registers (spec/10_state.md R30, R31). -/

/-- The stored value of a register; 0 for register 0. -/
def RegFile.get (f : RegFile) (r : RegId) : Word :=
  if r = 1#3 then f.x1
  else if r = 2#3 then f.x2
  else if r = 3#3 then f.x3
  else if r = 4#3 then f.x4
  else if r = 5#3 then f.x5
  else if r = 6#3 then f.x6
  else if r = 7#3 then f.x7
  else 0#16

/-- The register file after a write; a write to register 0 is discarded. -/
def RegFile.set (f : RegFile) (r : RegId) (v : Word) : RegFile :=
  if r = 1#3 then { f with x1 := v }
  else if r = 2#3 then { f with x2 := v }
  else if r = 3#3 then { f with x3 := v }
  else if r = 4#3 then { f with x4 := v }
  else if r = 5#3 then { f with x5 := v }
  else if r = 6#3 then { f with x6 := v }
  else if r = 7#3 then { f with x7 := v }
  else f

/-- `x[r]` (spec/00_scope.md R16). -/
def State.reg (s : State) (r : RegId) : Word := s.regs.get r

/-- `x[r] <- v` (spec/00_scope.md R16). -/
def State.setReg (s : State) (r : RegId) (v : Word) : State := { s with regs := s.regs.set r v }

/-! Field updates. -/

def State.setPc (s : State) (pc : Addr) : State := { s with pc := pc }
def State.setHalted (s : State) : State := { s with halted := true }
def State.setMem (s : State) (m : Memory) : State := { s with mem := m }
def State.setCache (s : State) (h : Hierarchy) : State := { s with cache := h }

/-- `emit E` (R16): appends one record to the event stream (spec/10_state.md R50). -/
def State.emit (s : State) (e : Event) : State := { s with events := s.events ++ [e] }

/-! Main memory (spec/10_state.md R37 to R39). -/

/-- The word at an address of the list. -/
def Memory.lookup : Memory → Nat → Word
  | [], _ => Memory.unlisted
  | (k, w) :: rest, a => if k = a then w else Memory.lookup rest a

/-- A cell in front of a list, unless it equals what an unlisted address reads as. -/
def Memory.cons (a : Nat) (v : Word) (m : Memory) : Memory := if v = Memory.unlisted then m else (a, v) :: m

/-- The list after a word is written, in canonical form. -/
def Memory.insert : Memory → Nat → Word → Memory
  | [], a, v => Memory.cons a v []
  | (k, w) :: rest, a, v =>
    if a < k then Memory.cons a v ((k, w) :: rest)
    else if a = k then Memory.cons a v rest
    else (k, w) :: Memory.insert rest a v

/-- `MemRead(a, 1)`: the word at `a mod MEM_SIZE` (spec/00_scope.md R16). -/
def memRead (m : Memory) (a : Nat) : Word := m.lookup (a % memSize)

/-- `MemWrite(a, 1, v)`: sets the word at `a mod MEM_SIZE` (spec/00_scope.md R16). -/
def memWrite (m : Memory) (a : Nat) (v : Word) : Memory := m.insert (a % memSize) v

/-- The word of main memory at an address, as `MemRead` reads it. -/
def State.word (s : State) (a : Addr) : Word := memRead s.mem a.toNat

/-! The end of a step (spec/40_step.md R152, R155, R156). -/

/-- A 13-bit address as a 16-bit word. -/
def addrToWord (a : Addr) : Word := a.setWidth 16

/-- A 16-bit value reduced modulo `MEM_SIZE`. -/
def wordToAddr (w : Word) : Addr := w.setWidth 13

/-- `pc + 1`, the tentative next pc, not reduced (R152). -/
def State.pcPlusOne (s : State) : Word := addrToWord s.pc + 1#16

/-- The halt test and the advance: if the computed next pc is the instruction's own address the machine halts and `pc` keeps
its value (R156); otherwise `pc` becomes the next pc modulo `MEM_SIZE` (R155). -/
def State.finish (s : State) (pcNext : Word) : State :=
  if pcNext = addrToWord s.pc then s.setHalted else s.setPc (wordToAddr pcNext)

/-- The end of an instruction that transfers no control. -/
def State.advance (s : State) : State := s.finish s.pcPlusOne

end Sys2Proof.Machine
end

