-- ==== Sys2Proof/Machine/Cache.lean ====
section
/-! DEFINITION. The cache controller (spec/20_memory.md sections 3 to 5): address decomposition, row operations, the operations
of one level, and the two requests `Load` and `Store`. -/

namespace Sys2Proof.Machine

/-! Address decomposition (R70). -/

def blockIdOf (c : LevelConfig) (a : Addr) : Nat := a.toNat / c.blocksize
def rowIndexOf (c : LevelConfig) (a : Addr) : Nat := blockIdOf c a % c.rowCount
def tagOf (c : LevelConfig) (a : Addr) : Nat := blockIdOf c a / c.rowCount
def offsetOf (c : LevelConfig) (a : Addr) : Nat := a.toNat % c.blocksize

/-! Rows. -/

/-- The entry of a row with a tag, if resident. -/
def findEntry (row : Row) (t : Nat) : Option Entry := row.find? (fun e => e.tag == t)

/-- The row without its entry of a tag, the others in their order (R73). -/
def withoutTag (row : Row) (t : Nat) : Row := row.eraseP (fun e => e.tag == t)

/-- The row with a full row's last entry, the least recently used, evicted (R74, R75). -/
def evictIfFull (assoc : Nat) (row : Row) : Row := if row.length = assoc then row.dropLast else row

/-- The data of an entry with one word replaced (R77). -/
def Entry.setWord (e : Entry) (o : Nat) (v : Word) : Entry := { e with data := e.data.set o v }

/-- The word of an entry at an offset. Every entry the rules make has `blocksize` words (R48), so an offset is always in
range; outside it, in no state a run reaches, it reads 0 (log 15). -/
def Entry.word (e : Entry) (o : Nat) : Word := e.data.getD o 0#16

/-- Row `r` of a level; a level has `rowCount` rows (R47), so a row index is always in range (log 15). -/
def Level.row (l : Level) (r : Nat) : Row := l.rows.getD r []

/-- The level with row `r` replaced. -/
def Level.setRow (l : Level) (r : Nat) (row : Row) : Level := { l with rows := l.rows.set r row }

/-- The result of a probe (R71). -/
structure Probe where
  hit : Bool
  row : Nat
  tag : Nat
  deriving DecidableEq, Repr

/-- `probe(c, a)`: reads the row of `a` and changes nothing (R71). -/
def Level.probe (l : Level) (a : Addr) : Probe where
  hit := (findEntry (l.row (rowIndexOf l.cfg a)) (tagOf l.cfg a)).isSome
  row := rowIndexOf l.cfg a
  tag := tagOf l.cfg a

/-- `fillBlock(c, id)`: the block's words, read from main memory at addresses modulo `MEM_SIZE` (R72, decision D8; log 8). -/
def fillBlock (m : Memory) (c : LevelConfig) (id : Nat) : List Word :=
  (List.range c.blocksize).map (fun i => memRead m (id * c.blocksize + i))

/-- `promote(c, r, t)`: moves the entry of tag `t` to the head of row `r` (R73). -/
def Level.promote (l : Level) (r t : Nat) : Level :=
  match findEntry (l.row r) t with
  | some e => l.setRow r (e :: withoutTag (l.row r) t)
  | none => l

/-- The entry a fill of `a` inserts (R74). -/
def filledEntry (m : Memory) (c : LevelConfig) (a : Addr) : Entry := ⟨tagOf c a, fillBlock m c (blockIdOf c a)⟩

/-- `allocate(c, a)`: evicts the row's last entry if the row is full, then inserts the block of `a` at the head (R74). -/
def Level.allocate (m : Memory) (l : Level) (a : Addr) : Level :=
  l.setRow (rowIndexOf l.cfg a)
    (filledEntry m l.cfg a :: evictIfFull l.cfg.assoc (l.row (rowIndexOf l.cfg a)))

/-- The word a load takes from the head of `a`'s row, `c.rows[r].head.data[o]` (R76, R82). -/
def Level.headWord (l : Level) (a : Addr) : Word :=
  match l.row (rowIndexOf l.cfg a) with
  | e :: _ => e.word (offsetOf l.cfg a)
  | [] => 0#16

/-- `levelLoad(c, a)` (R76): the level after the access and whether it hit; the word is then `headWord`. -/
def Level.load (m : Memory) (l : Level) (a : Addr) : Level × Status :=
  let p := l.probe a
  if p.hit then (l.promote p.row p.tag, .HIT) else (l.allocate m a, .MISS)

/-- A store's hit on a level: the word is replaced in the entry, then the entry is promoted (R77). -/
def Level.updateWord (l : Level) (r t o : Nat) (v : Word) : Level :=
  (l.setRow r ((l.row r).map (fun e => if e.tag == t then e.setWord o v else e))).promote r t

/-- `levelStore(c, a, v)` (R77): `m` is main memory after the store's write. -/
def Level.store (m : Memory) (l : Level) (a : Addr) (v : Word) : Level :=
  let p := l.probe a
  if p.hit then l.updateWord p.row p.tag (offsetOf l.cfg a) v else l.allocate m a

/-! The requests. Each is one atomic transition of the whole state (R61). The event's pc is the requester's (R51). -/

/-- The event of an access of the running instruction. -/
def accessEvent (s : State) (level : LevelId) (status : Status) (c : LevelConfig) (a : Addr) : Event :=
  ⟨level, status, s.pc, a, rowIndexOf c a⟩

/-- L2 after an L1 miss of a two-level load: on a hit it is promoted if `l2HitPromotes` and otherwise left (R86), on a miss it
is filled (R85). -/
def Level.afterUpperMiss (m : Memory) (promotes : Bool) (l2 : Level) (a : Addr) : Level × Status :=
  let p := l2.probe a
  if p.hit then (if promotes then l2.promote p.row p.tag else l2, .HIT) else (l2.allocate m a, .MISS)

/-- `Load(a, pc)` in L1-only mode (R81). -/
def loadOneLevel (s : State) (l1 : Level) (a : Addr) : Word × State :=
  let r := l1.load s.mem a
  (r.1.headWord a, (s.setCache (.oneLevel r.1)).emit (accessEvent s .L1 r.2 l1.cfg a))

/-- `Load(a, pc)` in two-level mode (R82 to R87). -/
def loadTwoLevel (s : State) (l1 l2 : Level) (a : Addr) : Word × State :=
  if (l1.probe a).hit then
    let l1' := (l1.load s.mem a).1
    (l1'.headWord a, (s.setCache (.twoLevel l1' l2)).emit (accessEvent s .L1 .HIT l1.cfg a))
  else
    let r2 := l2.afterUpperMiss s.mem s.l2HitPromotes a
    let l1' := l1.allocate s.mem a
    (l1'.headWord a,
      ((s.setCache (.twoLevel l1' r2.1)).emit (accessEvent s .L1 .MISS l1.cfg a)).emit
        (accessEvent s .L2 r2.2 l2.cfg a))

/-- `Load(a, pc)` (R80 to R87): the word returned and the state after the request. -/
def State.load (s : State) (a : Addr) : Word × State :=
  match s.cache with
  | .noCache => (s.word a, s)
  | .oneLevel l1 => loadOneLevel s l1 a
  | .twoLevel l1 l2 => loadTwoLevel s l1 l2 a

/-- The cache side of a store, after its memory write: each configured level in order L1, L2, one `SW` event per level
(R88 to R91; decisions D5, D6, log 13). -/
def State.storeLevels (s : State) (a : Addr) (v : Word) : State :=
  match s.cache with
  | .noCache => s
  | .oneLevel l1 =>
    (s.setCache (.oneLevel (l1.store s.mem a v))).emit (accessEvent s .L1 .SW l1.cfg a)
  | .twoLevel l1 l2 =>
    ((s.setCache (.twoLevel (l1.store s.mem a v) (l2.store s.mem a v))).emit
      (accessEvent s .L1 .SW l1.cfg a)).emit (accessEvent s .L2 .SW l2.cfg a)

/-- `Store(a, v, pc)` (R88): main memory is written first, then every configured level. -/
def State.store (s : State) (a : Addr) (v : Word) : State :=
  (s.setMem (memWrite s.mem a.toNat v)).storeLevels a v

end Sys2Proof.Machine
end

