-- ==== Sys2Proof/Machine/Flags.lean ====
section
/-! DEFINITION. The machine has no status flags, condition codes or predicate registers (spec/10_state.md R35). A comparison's
result is a word written to a general register; this is the one computation of it. -/

namespace Sys2Proof.Machine

/-- 1 if `a` is less than `b` as two's-complement numbers, else 0 (spec/41_register_form.md R174, spec/42_immediate_form.md
R191; signed as the document says, spec/90_conflicts.md C3, log 12). -/
def signedLess (a b : Word) : Word := if a.toInt < b.toInt then 1#16 else 0#16

end Sys2Proof.Machine
end

