-- ==== Sys2Proof/WellFormed.lean ====
section
/-! DEFINITION. Well-formed instructions: every operand of every constructor fits its field of the word
(spec/30_encoding.md R123 to R125, R129). -/

namespace Sys2Proof

/-- The check of one operand: its value fits a field of `width` bits. -/
def fitsField (width : Nat) (value : Nat) : Bool := value < 2 ^ width

/-- The three register fields of a register-form word (R123). -/
def registerFieldsFit (d a b : RegId) : Bool := fitsField 3 d.toNat && fitsField 3 a.toNat && fitsField 3 b.toNat

/-- The two register fields and the 7-bit field of an immediate-form word (R124). -/
def immediateFieldsFit (t s : RegId) (imm : Imm7) : Bool :=
  fitsField 3 t.toNat && fitsField 3 s.toNat && fitsField 7 imm.toNat

/-- Every operand fits its field. The operand types have exactly the fields' widths, so the check holds of every term: an
ill-formed instruction cannot be written down, and nothing shuts a form out. -/
def WellFormed : Instr → Bool
  | .add d a b => registerFieldsFit d a b
  | .sub d a b => registerFieldsFit d a b
  | .or d a b => registerFieldsFit d a b
  | .and d a b => registerFieldsFit d a b
  | .slt d a b => registerFieldsFit d a b
  | .jr a ignored => fitsField 3 a.toNat && fitsField 6 ignored.toNat
  | .addi t s imm => immediateFieldsFit t s imm
  | .j target => fitsField 13 target.toNat
  | .jal target => fitsField 13 target.toNat
  | .lw t s imm => immediateFieldsFit t s imm
  | .sw t s imm => immediateFieldsFit t s imm
  | .jeq a b imm => immediateFieldsFit a b imm
  | .slti t s imm => immediateFieldsFit t s imm
  | .undef5 d a b => registerFieldsFit d a b
  | .undef6 d a b => registerFieldsFit d a b
  | .undef7 d a b => registerFieldsFit d a b
  | .undef9 d a b => registerFieldsFit d a b
  | .undef10 d a b => registerFieldsFit d a b
  | .undef11 d a b => registerFieldsFit d a b
  | .undef12 d a b => registerFieldsFit d a b
  | .undef13 d a b => registerFieldsFit d a b
  | .undef14 d a b => registerFieldsFit d a b
  | .undef15 d a b => registerFieldsFit d a b

end Sys2Proof
end

