-- ==== Sys2Proof/Decode.lean ====
section
/-! DEFINITION. The instruction decoder and the encoder (spec/30_encoding.md). The decoder is total: every word decodes to one
of the thirteen instructions or to an undefined-func word (spec/40_step.md R151); the opcode numbers 001 to 111 are the
spec's decision D1 (log 1). -/

namespace Sys2Proof

/-! Fields of a word (R120, R123 to R125). -/

/-- `instr[15:13]`. -/
def opcodeField (w : Word) : Opcode := w.extractLsb' 13 3
/-- `instr[12:10]`. -/
def regAField (w : Word) : RegId := w.extractLsb' 10 3
/-- `instr[9:7]`. -/
def regBField (w : Word) : RegId := w.extractLsb' 7 3
/-- `instr[6:4]`. -/
def regDstField (w : Word) : RegId := w.extractLsb' 4 3
/-- `instr[3:0]`. -/
def funcField (w : Word) : Func := w.extractLsb' 0 4
/-- `instr[6:0]`. -/
def imm7Field (w : Word) : Imm7 := w.extractLsb' 0 7
/-- `instr[12:0]`. -/
def addr13Field (w : Word) : Addr13 := w.extractLsb' 0 13
/-- `instr[9:4]`, which jr ignores (R133). -/
def ignoredField (w : Word) : BitVec 6 := w.extractLsb' 4 6

/-- Sign extension of the 7-bit field: bit 6 set ORs in 0xFF80 (spec/00_scope.md R15, R126). -/
def sext16 (f : Imm7) : Word :=
  if f.getLsbD 6 then f.setWidth 16 ||| 0xFF80#16 else f.setWidth 16

/-! The decoder's outputs. -/

/-- Format selection by the opcode (R122). -/
def formatOf (op : Opcode) : Format :=
  if op = 0#3 then .R else if op = 2#3 ∨ op = 3#3 then .J else .I

/-- The instruction a word names (R131). -/
def kindOf (w : Word) : Kind :=
  if opcodeField w = 0#3 then
    if funcField w = 0#4 then .add
    else if funcField w = 1#4 then .sub
    else if funcField w = 2#4 then .or
    else if funcField w = 3#4 then .and
    else if funcField w = 4#4 then .slt
    else if funcField w = 8#4 then .jr
    else .UNDEF
  else if opcodeField w = 1#3 then .addi
  else if opcodeField w = 2#3 then .j
  else if opcodeField w = 3#3 then .jal
  else if opcodeField w = 4#3 then .lw
  else if opcodeField w = 5#3 then .sw
  else if opcodeField w = 6#3 then .jeq
  else .slti

/-- The flat wires (R120), computed in parallel from the word. -/
def decoderPorts (w : Word) : DecoderPorts where
  opcode := opcodeField w
  format := formatOf (opcodeField w)
  regA   := regAField w
  regB   := regBField w
  regDst := regDstField w
  func   := funcField w
  imm7   := imm7Field w
  simm   := sext16 (imm7Field w)
  addr13 := addr13Field w
  kind   := kindOf w

/-- The tagged variant (R135). -/
def decodeVariant (w : Word) : Decoded :=
  if opcodeField w = 0#3 then .RegisterOp (regAField w) (regBField w) (regDstField w) (funcField w)
  else if opcodeField w = 2#3 ∨ opcodeField w = 3#3 then .JumpOp (opcodeField w) (addr13Field w)
  else .ImmediateOp (opcodeField w) (regAField w) (regBField w) (sext16 (imm7Field w))

/-! Decoding to an instruction. -/

/-- The register form: the func field selects (R123, R131, R132). The last branch is func 15, the only value left. -/
def decodeRegisterForm (func : Func) (d a b : RegId) (ignored : BitVec 6) : Instr :=
  if func = 0#4 then .add d a b
  else if func = 1#4 then .sub d a b
  else if func = 2#4 then .or d a b
  else if func = 3#4 then .and d a b
  else if func = 4#4 then .slt d a b
  else if func = 5#4 then .undef5 d a b
  else if func = 6#4 then .undef6 d a b
  else if func = 7#4 then .undef7 d a b
  else if func = 8#4 then .jr a ignored
  else if func = 9#4 then .undef9 d a b
  else if func = 10#4 then .undef10 d a b
  else if func = 11#4 then .undef11 d a b
  else if func = 12#4 then .undef12 d a b
  else if func = 13#4 then .undef13 d a b
  else if func = 14#4 then .undef14 d a b
  else .undef15 d a b

/-- The decoder (R131). The last branch is opcode 7, the only value left. -/
def decode (w : Word) : Instr :=
  if opcodeField w = 0#3 then
    decodeRegisterForm (funcField w) (regDstField w) (regAField w) (regBField w) (ignoredField w)
  else if opcodeField w = 1#3 then .addi (regBField w) (regAField w) (imm7Field w)
  else if opcodeField w = 2#3 then .j (addr13Field w)
  else if opcodeField w = 3#3 then .jal (addr13Field w)
  else if opcodeField w = 4#3 then .lw (regBField w) (regAField w) (imm7Field w)
  else if opcodeField w = 5#3 then .sw (regBField w) (regAField w) (imm7Field w)
  else if opcodeField w = 6#3 then .jeq (regAField w) (regBField w) (imm7Field w)
  else .slti (regBField w) (regAField w) (imm7Field w)

/-- The instruction the decoder reads from the lowest `nbits` bits of `w`, the bits above being 0. Every instruction is one
16-bit word (spec/00_scope.md R10), so a longer one is refused. -/
def decodeTableWord (nbits w : Nat) : Option Instr :=
  if nbits ≤ 16 ∧ w < 2 ^ nbits then some (decode (BitVec.ofNat 16 w)) else none

/-! The encoder, from the patterns of R130 and R132. -/

/-- `000aaabbbdddffff` (R123). -/
def encodeRegisterForm (func : Func) (d a b : RegId) : Word := 0#3 ++ a ++ b ++ d ++ func

/-- `ooossstttiiiiiii` (R124). -/
def encodeImmediateForm (op : Opcode) (t s : RegId) (imm : Imm7) : Word := op ++ s ++ t ++ imm

/-- `oooiiiiiiiiiiiii` (R125). -/
def encodeJumpForm (op : Opcode) (target : Addr13) : Word := op ++ target

/-- The word of an instruction (R130; the undefined rows, R132). -/
def encode : Instr → Word
  | .add d a b => encodeRegisterForm 0#4 d a b
  | .sub d a b => encodeRegisterForm 1#4 d a b
  | .or d a b => encodeRegisterForm 2#4 d a b
  | .and d a b => encodeRegisterForm 3#4 d a b
  | .slt d a b => encodeRegisterForm 4#4 d a b
  | .jr a ignored => 0#3 ++ a ++ ignored ++ 8#4
  | .addi t s imm => encodeImmediateForm 1#3 t s imm
  | .j target => encodeJumpForm 2#3 target
  | .jal target => encodeJumpForm 3#3 target
  | .lw t s imm => encodeImmediateForm 4#3 t s imm
  | .sw t s imm => encodeImmediateForm 5#3 t s imm
  | .jeq a b imm => encodeImmediateForm 6#3 b a imm
  | .slti t s imm => encodeImmediateForm 7#3 t s imm
  | .undef5 d a b => encodeRegisterForm 5#4 d a b
  | .undef6 d a b => encodeRegisterForm 6#4 d a b
  | .undef7 d a b => encodeRegisterForm 7#4 d a b
  | .undef9 d a b => encodeRegisterForm 9#4 d a b
  | .undef10 d a b => encodeRegisterForm 10#4 d a b
  | .undef11 d a b => encodeRegisterForm 11#4 d a b
  | .undef12 d a b => encodeRegisterForm 12#4 d a b
  | .undef13 d a b => encodeRegisterForm 13#4 d a b
  | .undef14 d a b => encodeRegisterForm 14#4 d a b
  | .undef15 d a b => encodeRegisterForm 15#4 d a b

/-! The opcode map as data: the rows of R130, then the ten undefined rows of R132, in the order of spec/opcode_table.json. -/

/-- The table row of an instruction. -/
def opcodeRow : Instr → OpcodeRow
  | .add _ _ _ => ⟨.add, 0x0000#16, 0xE00F#16⟩
  | .sub _ _ _ => ⟨.sub, 0x0001#16, 0xE00F#16⟩
  | .or _ _ _ => ⟨.or, 0x0002#16, 0xE00F#16⟩
  | .and _ _ _ => ⟨.and, 0x0003#16, 0xE00F#16⟩
  | .slt _ _ _ => ⟨.slt, 0x0004#16, 0xE00F#16⟩
  | .jr _ _ => ⟨.jr, 0x0008#16, 0xE00F#16⟩
  | .addi _ _ _ => ⟨.addi, 0x2000#16, 0xE000#16⟩
  | .j _ => ⟨.j, 0x4000#16, 0xE000#16⟩
  | .jal _ => ⟨.jal, 0x6000#16, 0xE000#16⟩
  | .lw _ _ _ => ⟨.lw, 0x8000#16, 0xE000#16⟩
  | .sw _ _ _ => ⟨.sw, 0xA000#16, 0xE000#16⟩
  | .jeq _ _ _ => ⟨.jeq, 0xC000#16, 0xE000#16⟩
  | .slti _ _ _ => ⟨.slti, 0xE000#16, 0xE000#16⟩
  | .undef5 _ _ _ => ⟨.UNDEF, 0x0005#16, 0xE00F#16⟩
  | .undef6 _ _ _ => ⟨.UNDEF, 0x0006#16, 0xE00F#16⟩
  | .undef7 _ _ _ => ⟨.UNDEF, 0x0007#16, 0xE00F#16⟩
  | .undef9 _ _ _ => ⟨.UNDEF, 0x0009#16, 0xE00F#16⟩
  | .undef10 _ _ _ => ⟨.UNDEF, 0x000A#16, 0xE00F#16⟩
  | .undef11 _ _ _ => ⟨.UNDEF, 0x000B#16, 0xE00F#16⟩
  | .undef12 _ _ _ => ⟨.UNDEF, 0x000C#16, 0xE00F#16⟩
  | .undef13 _ _ _ => ⟨.UNDEF, 0x000D#16, 0xE00F#16⟩
  | .undef14 _ _ _ => ⟨.UNDEF, 0x000E#16, 0xE00F#16⟩
  | .undef15 _ _ _ => ⟨.UNDEF, 0x000F#16, 0xE00F#16⟩

/-- The 23 rows. -/
def opcodeTable : List OpcodeRow :=
  [⟨.add, 0x0000#16, 0xE00F#16⟩, ⟨.sub, 0x0001#16, 0xE00F#16⟩, ⟨.or, 0x0002#16, 0xE00F#16⟩,
   ⟨.and, 0x0003#16, 0xE00F#16⟩, ⟨.slt, 0x0004#16, 0xE00F#16⟩, ⟨.jr, 0x0008#16, 0xE00F#16⟩,
   ⟨.addi, 0x2000#16, 0xE000#16⟩, ⟨.j, 0x4000#16, 0xE000#16⟩, ⟨.jal, 0x6000#16, 0xE000#16⟩,
   ⟨.lw, 0x8000#16, 0xE000#16⟩, ⟨.sw, 0xA000#16, 0xE000#16⟩, ⟨.jeq, 0xC000#16, 0xE000#16⟩,
   ⟨.slti, 0xE000#16, 0xE000#16⟩]
  ++ [⟨.UNDEF, 0x0005#16, 0xE00F#16⟩, ⟨.UNDEF, 0x0006#16, 0xE00F#16⟩, ⟨.UNDEF, 0x0007#16, 0xE00F#16⟩,
   ⟨.UNDEF, 0x0009#16, 0xE00F#16⟩, ⟨.UNDEF, 0x000A#16, 0xE00F#16⟩, ⟨.UNDEF, 0x000B#16, 0xE00F#16⟩,
   ⟨.UNDEF, 0x000C#16, 0xE00F#16⟩, ⟨.UNDEF, 0x000D#16, 0xE00F#16⟩, ⟨.UNDEF, 0x000E#16, 0xE00F#16⟩,
   ⟨.UNDEF, 0x000F#16, 0xE00F#16⟩]

/-- A word is of a row when `word &&& mask = pattern` (R130). -/
def rowMatches (w : Word) (r : OpcodeRow) : Bool := w &&& r.mask == r.pattern

end Sys2Proof
end

