-- ==== Sys2Proof/Machine/Operands.lean ====
section
/-! DEFINITION. Every operand form the spec gives (spec/30_encoding.md R126 to R129; no other exists, R129). A register operand
is `State.reg`; the immediate operand is `sext16`. -/

namespace Sys2Proof.Machine

/-- Base plus signed word offset, `(x[base] + sext_16(imm7)) mod MEM_SIZE` (spec/20_memory.md R65; lw R192, sw R193). -/
def effectiveAddr (s : State) (base : RegId) (imm : Imm7) : Addr := wordToAddr (s.reg base + sext16 imm)

/-- The target of jr: the register's value modulo `MEM_SIZE` (spec/41_register_form.md R175). -/
def registerTarget (s : State) (a : RegId) : Word := addrToWord (wordToAddr (s.reg a))

/-- The target of j and jal: the address field, zero-extended (spec/30_encoding.md R128; spec/43_jump_form.md R220). -/
def absoluteTarget (target : Addr13) : Word := addrToWord target

/-- The target of a taken jeq: `wrap16(pc_next + simm)` (spec/42_immediate_form.md R194). -/
def relativeTarget (s : State) (imm : Imm7) : Word := s.pcPlusOne + sext16 imm

end Sys2Proof.Machine
end

