-- ==== Sys2Proof/Machine/RegisterForm.lean ====
section
/-! DEFINITION. The register-form instructions (spec/41_register_form.md). -/

namespace Sys2Proof.Machine

/-- What one instruction answers. -/
abbrev Result := Host.Outcome State Fault Refusal

/-- A computing instruction: `x[d] <- f x[a] x[b]` over the register values before the write, then the advance (R154, R176). -/
def compute (f : Word → Word → Word) (d a b : RegId) (s : State) : State :=
  (s.setReg d (f (s.reg a) (s.reg b))).advance

/-- `add $d, $a, $b` (R170). -/
def execAdd (d a b : RegId) (s : State) : Result := .next (compute (fun x y => x + y) d a b s)

/-- `sub $d, $a, $b` (R171). -/
def execSub (d a b : RegId) (s : State) : Result := .next (compute (fun x y => x - y) d a b s)

/-- `or $d, $a, $b` (R172). -/
def execOr (d a b : RegId) (s : State) : Result := .next (compute (fun x y => x ||| y) d a b s)

/-- `and $d, $a, $b` (R173). -/
def execAnd (d a b : RegId) (s : State) : Result := .next (compute (fun x y => x &&& y) d a b s)

/-- `slt $d, $a, $b` (R174). -/
def execSlt (d a b : RegId) (s : State) : Result := .next (compute signedLess d a b s)

/-- `jr $a` (R175). -/
def execJr (a : RegId) (s : State) : Result := .next (s.finish (registerTarget s a))

/-- A register-form word with an undefined func (R177): a no-operation under `undefFunc = nop`, refused under
`undefFunc = refuse`. -/
def undefinedFunc (s : State) : Result :=
  match s.undefFunc with
  | .nop => .next s.advance
  | .refuse => .refused .undefinedFunction

/-- func 5 (R132, R177). -/
def execUndef5 (s : State) : Result := undefinedFunc s
/-- func 6 (R132, R177). -/
def execUndef6 (s : State) : Result := undefinedFunc s
/-- func 7 (R132, R177). -/
def execUndef7 (s : State) : Result := undefinedFunc s
/-- func 9 (R132, R177). -/
def execUndef9 (s : State) : Result := undefinedFunc s
/-- func 10 (R132, R177). -/
def execUndef10 (s : State) : Result := undefinedFunc s
/-- func 11 (R132, R177). -/
def execUndef11 (s : State) : Result := undefinedFunc s
/-- func 12 (R132, R177). -/
def execUndef12 (s : State) : Result := undefinedFunc s
/-- func 13 (R132, R177). -/
def execUndef13 (s : State) : Result := undefinedFunc s
/-- func 14 (R132, R177). -/
def execUndef14 (s : State) : Result := undefinedFunc s
/-- func 15 (R132, R177). -/
def execUndef15 (s : State) : Result := undefinedFunc s

end Sys2Proof.Machine
end

