-- ==== Sys2Proof/Machine/ImmediateForm.lean ====
section
/-! DEFINITION. The immediate-form instructions (spec/42_immediate_form.md). -/

namespace Sys2Proof.Machine

/-- A computing instruction with an immediate: `x[t] <- f x[s] simm`, then the advance (R190, R191). -/
def computeImm (f : Word → Word → Word) (t s : RegId) (imm : Imm7) (st : State) : State :=
  (st.setReg t (f (st.reg s) (sext16 imm))).advance

/-- `addi $t, $s, imm` (R190). -/
def execAddi (t s : RegId) (imm : Imm7) (st : State) : Result := .next (computeImm (fun x y => x + y) t s imm st)

/-- `slti $t, $s, imm` (R191). -/
def execSlti (t s : RegId) (imm : Imm7) (st : State) : Result := .next (computeImm signedLess t s imm st)

/-- `lw $t, imm($s)` (R192): the `Load` happens whatever `t` is; only the register write is skipped for register 0. -/
def execLw (t s : RegId) (imm : Imm7) (st : State) : Result :=
  let r := st.load (effectiveAddr st s imm)
  .next (r.2.setReg t r.1).advance

/-- `sw $t, imm($s)` (R193). -/
def execSw (t s : RegId) (imm : Imm7) (st : State) : Result :=
  .next (st.store (effectiveAddr st s imm) (st.reg t)).advance

/-- `jeq $a, $b, target` (R194). -/
def execJeq (a b : RegId) (imm : Imm7) (st : State) : Result :=
  .next (st.finish (if st.reg a = st.reg b then relativeTarget st imm else st.pcPlusOne))

end Sys2Proof.Machine
end

