-- ==== Sys2Proof/Machine/JumpForm.lean ====
section
/-! DEFINITION. The jump-form instructions (spec/43_jump_form.md). -/

namespace Sys2Proof.Machine

/-- `j target` (R220). -/
def execJ (target : Addr13) (s : State) : Result := .next (s.finish (absoluteTarget target))

/-- `jal target` (R222): the link, `pc + 1` not reduced (decision D9, log 9), is written before the halt test (R156). -/
def execJal (target : Addr13) (s : State) : Result :=
  .next ((s.setReg 7#3 s.pcPlusOne).finish (absoluteTarget target))

end Sys2Proof.Machine
end

