-- ==== Sys2Proof/Machine/Dispatch.lean ====
section
/-! DEFINITION. Dispatch (spec/40_step.md R153): one arm per instruction, each one call of its meaning. -/

namespace Sys2Proof.Machine

def exec (i : Instr) (s : State) : Host.Outcome State Fault Refusal :=
  match i with
  | .add d a b => Sys2Proof.Machine.execAdd d a b s
  | .sub d a b => Sys2Proof.Machine.execSub d a b s
  | .or d a b => Sys2Proof.Machine.execOr d a b s
  | .and d a b => Sys2Proof.Machine.execAnd d a b s
  | .slt d a b => Sys2Proof.Machine.execSlt d a b s
  | .jr a _ => Sys2Proof.Machine.execJr a s
  | .addi t r imm => Sys2Proof.Machine.execAddi t r imm s
  | .j target => Sys2Proof.Machine.execJ target s
  | .jal target => Sys2Proof.Machine.execJal target s
  | .lw t r imm => Sys2Proof.Machine.execLw t r imm s
  | .sw t r imm => Sys2Proof.Machine.execSw t r imm s
  | .jeq a b imm => Sys2Proof.Machine.execJeq a b imm s
  | .slti t r imm => Sys2Proof.Machine.execSlti t r imm s
  | .undef5 _ _ _ => Sys2Proof.Machine.execUndef5 s
  | .undef6 _ _ _ => Sys2Proof.Machine.execUndef6 s
  | .undef7 _ _ _ => Sys2Proof.Machine.execUndef7 s
  | .undef9 _ _ _ => Sys2Proof.Machine.execUndef9 s
  | .undef10 _ _ _ => Sys2Proof.Machine.execUndef10 s
  | .undef11 _ _ _ => Sys2Proof.Machine.execUndef11 s
  | .undef12 _ _ _ => Sys2Proof.Machine.execUndef12 s
  | .undef13 _ _ _ => Sys2Proof.Machine.execUndef13 s
  | .undef14 _ _ _ => Sys2Proof.Machine.execUndef14 s
  | .undef15 _ _ _ => Sys2Proof.Machine.execUndef15 s

end Sys2Proof.Machine
end

