-- ==== Sys2Proof/Machine/Fetch.lean ====
section
/-! DEFINITION. Instruction fetch (spec/40_step.md R150, R151): it reads main memory directly, touches no cache row and emits no
event. -/

namespace Sys2Proof.Machine

/-- The word at the program counter (R150). -/
def State.fetchWord (s : State) : Word := s.word s.pc

/-- The instruction at the program counter (R151). -/
def State.fetch (s : State) : Instr := decode s.fetchWord

/-- The state with a word stored where the next fetch reads, running, so that the very next step executes it: what loading a
program from outside amounts to for its first word (log 5). Nothing else changes. -/
def State.placeWord (s : State) (w : Word) : State :=
  { s with mem := memWrite s.mem s.pc.toNat w, halted := false }

end Sys2Proof.Machine
end

