-- ==== Sys2Proof/Machine/Step.lean ====
section
/-! DEFINITION. One step of the machine (spec/40_step.md R158). -/

namespace Sys2Proof.Machine

/-- One step. A configuration that breaks spec/10_state.md R45 has no run and is refused (log 11). A halted machine has no
step: its state stays as it was (R157; log 10). Otherwise the instruction at the program counter executes (R150 to R156). -/
def step (s : State) : Host.Outcome State Fault Refusal :=
  if s.cfg.Legal then
    if s.halted then .next s else exec s.fetch s
  else .refused .illegalConfiguration

/-- The state with the lowest `nbits` bits of `w` placed as the next instruction. -/
def State.withFetchWord (s : State) (nbits w : Nat) : State := s.placeWord (BitVec.ofNat 16 (w % 2 ^ nbits))

end Sys2Proof.Machine
end

