-- ==== Sys2Proof/Machine/Launch.lean ====
section
/-! DEFINITION. The host's part in a run (spec/70_reset_and_hazards.md R270 to R278): the start of a run from a cache argument and
an image, the launches for which no run exists, and what the host reads. The text parsers and layouts are out of scope
(spec/00_scope.md R6), so the arguments are typed (log 18). -/

namespace Sys2Proof.Machine

/-- Why a launch has no run (R241, R273, R276; spec/10_state.md R45). The host ends; no machine state exists. -/
inductive LaunchError where
  | cacheArgumentCount
  | illegalConfiguration
  | unparsableLine
  | outOfSequenceAddress
  | addressOverflow
  deriving DecidableEq, Repr

/-- One line `ram[<address>] = 16'b<bits>;` of an image, its bits in the order they are written (R272). -/
structure ImageLine where
  addr : Nat
  bits : List Bool
  deriving DecidableEq, Repr

/-- The levels a cache argument configures, L1 first: none, 3 or 6 numbers (R276). -/
def levelsOfArgs : Option (List Nat) → Except LaunchError (List LevelConfig)
  | none => .ok []
  | some [s, a, b] => .ok [⟨s, a, b⟩]
  | some [s, a, b, s', a', b'] => .ok [⟨s, a, b⟩, ⟨s', a', b'⟩]
  | some _ => .error .cacheArgumentCount

/-- The word of a line: 16 bits, the first written is bit 15 (R272). -/
def wordOfBits (bits : List Bool) : Option Word :=
  if bits.length = 16 then some (BitVec.ofNat 16 (bits.foldl (fun n b => 2 * n + b.toNat) 0)) else none

/-- The words of an image from address `k` on: addresses strictly increasing with no gaps, below `MEM_SIZE` (R272, R273). -/
def wordsOfLines (k : Nat) : List ImageLine → Except LaunchError (List Word)
  | [] => .ok []
  | line :: rest =>
    if memSize ≤ line.addr then .error .addressOverflow
    else if line.addr ≠ k then .error .outOfSequenceAddress
    else match wordOfBits line.bits with
      | none => .error .unparsableLine
      | some w => match wordsOfLines (k + 1) rest with
        | .error e => .error e
        | .ok ws => .ok (w :: ws)

/-- Main memory holding words from address `k` on, every other word 0 (R52, decision D10; log 6). -/
def memoryOfWords (k : Nat) : List Word → Memory
  | [] => []
  | w :: ws => Memory.cons k w (memoryOfWords (k + 1) ws)

/-- A level at the start of a run: every row empty (R52). -/
def emptyLevel (c : LevelConfig) : Level := ⟨c, List.replicate c.rowCount []⟩

/-- The hierarchy of a list of levels at the start of a run (R41, R47). A legal configuration lists at most two (R45). -/
def emptyHierarchy : List LevelConfig → Hierarchy
  | [] => .noCache
  | [c1] => .oneLevel (emptyLevel c1)
  | c1 :: c2 :: _ => .twoLevel (emptyLevel c1) (emptyLevel c2)

/-- The state at the start of a run with a configuration and the words of an image (R52, R270). -/
def startState (cfg : Config) (image : List Word) : State where
  regs   := ⟨0#16, 0#16, 0#16, 0#16, 0#16, 0#16, 0#16⟩
  pc     := 0#13
  mem    := memoryOfWords 0 image
  halted := false
  cache  := emptyHierarchy cfg.levels
  l2HitPromotes := cfg.l2HitPromotes
  undefFunc := cfg.undefFunc
  events := []

/-- A launch: arguments and configuration are validated, then the image is loaded (R270). The last two parameters are the
spec's own (R46), not the host's arguments. -/
def launch (args : Option (List Nat)) (lines : List ImageLine) (l2HitPromotes : Bool) (undefFunc : UndefFunc) :
    Except LaunchError State :=
  match levelsOfArgs args with
  | .error e => .error e
  | .ok levels =>
    if Config.Legal ⟨levels, l2HitPromotes, undefFunc⟩ then
      match wordsOfLines 0 lines with
      | .error e => .error e
      | .ok image => .ok (startState ⟨levels, l2HitPromotes, undefFunc⟩ image)
    else .error .illegalConfiguration

/-! What the host reads (R277, R250), as typed records. -/

/-- The final-state report: pc, all 8 registers, the first 128 words of memory (R277). -/
structure FinalStateReport where
  pc        : Addr
  registers : List Word
  memory    : List Word
  deriving DecidableEq, Repr

def finalStateReport (s : State) : FinalStateReport where
  pc        := s.pc
  registers := (List.range 8).map (fun r => s.reg (BitVec.ofNat 3 r))
  memory    := (List.range 128).map (fun a => memRead s.mem a)

/-- One line of the configuration report: name, size, associativity, blocksize, row count (R44). -/
structure LevelReport where
  name      : LevelId
  size      : Nat
  assoc     : Nat
  blocksize : Nat
  rowCount  : Nat
  deriving DecidableEq, Repr

def levelReport (name : LevelId) (c : LevelConfig) : LevelReport := ⟨name, c.size, c.assoc, c.blocksize, c.rowCount⟩

/-- One line per configured level, L1 first (R44). -/
def configurationReport (s : State) : List LevelReport :=
  match s.cache with
  | .noCache => []
  | .oneLevel l1 => [levelReport .L1 l1.cfg]
  | .twoLevel l1 l2 => [levelReport .L1 l1.cfg, levelReport .L2 l2.cfg]

/-- The per-access log as printed, one line per record in program order (R50); the text is the open `formatEvent` (log 17). -/
def eventLog (s : State) : List String := s.events.map Config.formatEvent

/-- Hit, miss and store counts of a level are functions of the event stream (spec/60_exceptions.md R250). -/
def eventCount (s : State) (level : LevelId) (status : Status) : Nat :=
  s.events.countP (fun e => e.level == level && e.status == status)

end Sys2Proof.Machine
end

