-- ==== Sys2Proof/Safety.lean ====
section
/-! DEFINITION. What the claims say about states: the row invariants (spec/10_state.md R48), coherence (spec/20_memory.md R96),
the invariant every step keeps, the part of the state a program can see, and what a frame says. -/

namespace Sys2Proof.Machine

/-- The invariants of row `r` of a level (R48): no more entries than the associativity, distinct tags, every entry as long as a
block; and every entry's block covers an address of memory, which bounds its tag. -/
abbrev RowWf (c : LevelConfig) (r : Nat) (row : Row) : Prop :=
  row.length ≤ c.assoc ∧ (row.map Entry.tag).Nodup ∧
    ∀ e ∈ row, e.data.length = c.blocksize ∧ (e.tag * c.rowCount + r) * c.blocksize < memSize

/-- A level's fields are legal (R45), it has `rowCount` rows (R47), and every row keeps its invariants. -/
abbrev LevelWf (l : Level) : Prop :=
  l.cfg.Legal ∧ l.rows.length = l.cfg.rowCount ∧ ∀ r < l.rows.length, RowWf l.cfg r (l.row r)

/-- Coherence of a level with main memory (R96): in every entry, every word whose address is in memory equals main memory's. -/
abbrev LevelCoherent (m : Memory) (l : Level) : Prop :=
  ∀ r < l.rows.length, ∀ e ∈ l.row r, ∀ i < l.cfg.blocksize,
    (e.tag * l.cfg.rowCount + r) * l.cfg.blocksize + i < memSize →
      e.word i = memRead m ((e.tag * l.cfg.rowCount + r) * l.cfg.blocksize + i)

/-- The invariant of the machine: main memory is in canonical form, and every configured level keeps its invariants and is
coherent with main memory. -/
abbrev MachineInv (s : State) : Prop :=
  s.mem.wf = true ∧ ∀ l ∈ s.cache.levels, LevelWf l ∧ LevelCoherent s.mem l

/-- The part of the state that no cache configuration changes: registers, pc, main memory, the run state, and the treatment of
undefined words. -/
structure ProgramView where
  regs      : RegFile
  pc        : Addr
  mem       : Memory
  halted    : Bool
  undefFunc : UndefFunc
  deriving DecidableEq, Repr

def State.view (s : State) : ProgramView := ⟨s.regs, s.pc, s.mem, s.halted, s.undefFunc⟩

/-- The view a step ends in, if it answers a next state. -/
def viewAfter : Host.Outcome State Fault Refusal → Option ProgramView
  | .next s => some s.view
  | .fault _ => none
  | .refused _ => none

/-- Every word of main memory reads as before. -/
abbrev SameMemory (s t : State) : Prop := ∀ a : Addr, t.word a = s.word a

/-- The cache rows, the event stream and the configuration are as before: nothing reached the cache controller. -/
abbrev SameController (s t : State) : Prop := t.cache = s.cache ∧ t.events = s.events ∧ t.cfg = s.cfg

/-- Every register but `d` reads as before. -/
abbrev SameRegsExcept (d : RegId) (s t : State) : Prop := ∀ r : RegId, r ≠ d → t.reg r = s.reg r

/-- Every register reads as before. -/
abbrev SameRegs (s t : State) : Prop := ∀ r : RegId, t.reg r = s.reg r

/-- The instruction after this one in memory is next (spec/10_state.md R34), and the machine runs or not as before. -/
abbrev GoesOn (s t : State) : Prop := t.pc.toNat = (s.pc.toNat + 1) % memSize ∧ t.halted = s.halted

/-- The end of a transfer to `target`: the machine halts with `pc` unchanged if the target is the instruction's own address
(spec/40_step.md R156), and otherwise `pc` is the target (R155). -/
abbrev Transfers (s t : State) (target : Addr) : Prop :=
  t.pc = target ∧ t.halted = (s.halted || target == s.pc)

/-- `signed(v)`: the two's-complement reading of a word (spec/00_scope.md R14). -/
def signedValue (w : Word) : Int := if w.toNat < 32768 then w.toNat else (w.toNat : Int) - 65536

/-- The register an instruction writes, named in a field or, for jal, register 7 (spec/10_state.md R32). -/
def destination : Instr → Option RegId
  | .add d _ _ => some d
  | .sub d _ _ => some d
  | .or d _ _ => some d
  | .and d _ _ => some d
  | .slt d _ _ => some d
  | .jr _ _ => none
  | .addi t _ _ => some t
  | .j _ => none
  | .jal _ => some 7#3
  | .lw t _ _ => some t
  | .sw _ _ _ => none
  | .jeq _ _ _ => none
  | .slti t _ _ => some t
  | .undef5 _ _ _ => none
  | .undef6 _ _ _ => none
  | .undef7 _ _ _ => none
  | .undef9 _ _ _ => none
  | .undef10 _ _ _ => none
  | .undef11 _ _ _ => none
  | .undef12 _ _ _ => none
  | .undef13 _ _ _ => none
  | .undef14 _ _ _ => none
  | .undef15 _ _ _ => none

/-- The instructions that halt in a state, as spec/40_step.md R159 lists them. -/
def haltsIn (s : State) : Instr → Prop
  | .j target => target = s.pc
  | .jal target => target = s.pc
  | .jr a _ => (s.reg a).toNat % memSize = s.pc.toNat
  | .jeq a b imm => s.reg a = s.reg b ∧ imm = 0x7F#7
  | .add _ _ _ => False
  | .sub _ _ _ => False
  | .or _ _ _ => False
  | .and _ _ _ => False
  | .slt _ _ _ => False
  | .addi _ _ _ => False
  | .lw _ _ _ => False
  | .sw _ _ _ => False
  | .slti _ _ _ => False
  | .undef5 _ _ _ => False
  | .undef6 _ _ _ => False
  | .undef7 _ _ _ => False
  | .undef9 _ _ _ => False
  | .undef10 _ _ _ => False
  | .undef11 _ _ _ => False
  | .undef12 _ _ _ => False
  | .undef13 _ _ _ => False
  | .undef14 _ _ _ => False
  | .undef15 _ _ _ => False

/-- An address hits a level: an entry with its tag is in its row (spec/20_memory.md R71). -/
abbrev Hits (l : Level) (a : Addr) : Prop := ∃ e ∈ l.row (rowIndexOf l.cfg a), e.tag = tagOf l.cfg a

/-! Recency (spec/10_state.md R47, spec/20_memory.md R73 to R77): the event stream says which accesses a level had. -/

/-- Whether an event is an access of a level that makes its tag the most recent: every event of the level, but for an L2 hit of a
load when `l2HitPromotes` is false (R86; log 4). -/
def touches (promotes : Bool) (level : LevelId) (e : Event) : Bool :=
  e.level == level && (promotes || level == .L1 || e.status != .HIT)

/-- The addresses a level was accessed at, oldest first. -/
def State.accesses (s : State) (level : LevelId) : List Addr :=
  (s.events.filter (touches s.l2HitPromotes level)).map Event.addr

/-- The tags most recently accessed in row `r`, most recent first, each once, as many as the associativity allows. (`List.dedup`
keeps the last occurrence.) -/
def recentTags (c : LevelConfig) (accesses : List Addr) (r : Nat) : List Nat :=
  (((accesses.filter (fun a => rowIndexOf c a == r)).map (tagOf c)).dedup.reverse).take c.assoc

/-- Every row of a level holds the most recently accessed tags in their order. -/
abbrev LevelRecent (l : Level) (accesses : List Addr) : Prop :=
  ∀ r < l.rows.length, (l.row r).map Entry.tag = recentTags l.cfg accesses r

/-- Every configured level holds the tags most recently accessed, by the event stream. -/
def LruInv (s : State) : Prop :=
  match s.cache with
  | .noCache => True
  | .oneLevel l1 => LevelRecent l1 (s.accesses .L1)
  | .twoLevel l1 l2 => LevelRecent l1 (s.accesses .L1) ∧ LevelRecent l2 (s.accesses .L2)

/-! Images (spec/70_reset_and_hazards.md R272). -/

/-- An image that loads: at most 8192 lines, line `k` with address `k` and sixteen bits. -/
abbrev ImageWf (lines : List ImageLine) : Prop :=
  lines.length ≤ memSize ∧ ∀ (k : Nat) (line : ImageLine), lines[k]? = some line → line.addr = k ∧ line.bits.length = 16

/-- The words of an image's lines, the first bit written being bit 15 (log 18). -/
abbrev ImageWords (lines : List ImageLine) (words : List Word) : Prop :=
  words.length = lines.length ∧ ∀ (k : Nat) (line : ImageLine), lines[k]? = some line →
    ∀ i < 16, line.bits[i]? = some ((words.getD k 0#16).getLsbD (15 - i))

end Sys2Proof.Machine
end

