-- ==== Sys2Proof/Certificates/Slice0/Obligations.lean ====
section
/-! DEFINITION. The statements for the provers. Each docstring says which sentences of spec/ it formalises, and names the log entry
where a clause rests on the spec's own decision or on a choice of the model. -/

open Sys2Proof Sys2Proof.Machine

/-! Encoding (spec/30_encoding.md). -/

/-- Decoding the word of any well-formed instruction gives the instruction back, with every operand at every value. -/
def Obligations.DecodeOfEncodeGivesTheInstructionBack : Prop :=
  ∀ i : Instr, WellFormed i = true → decode (encode i) = i

/-- Every word is the word of the instruction it decodes to: no two words decode alike. -/
def Obligations.EncodeOfDecodeGivesTheWordBack : Prop := ∀ w : Word, encode (decode w) = w

/-- Every word matches exactly one row of the opcode table by `(instr & mask) = match`, the row of the instruction it decodes to.
The opcode numbers 001 to 111 are decision D1 (log 1). -/
def Obligations.EveryWordMatchesExactlyItsRow : Prop :=
  ∀ w : Word, opcodeTable.filter (rowMatches w) = [opcodeRow (decode w)]

/-- Words written out from the encodings of the spec decode to the instructions they stand for (the opcode numbers: log 1). -/
def Obligations.SampleWordsDecode : Prop :=
  decode 0b0000010100110000#16 = .add 3#3 1#3 2#3 ∧ decode 0b0000010100110001#16 = .sub 3#3 1#3 2#3 ∧
  decode 0b0000010100110010#16 = .or 3#3 1#3 2#3 ∧ decode 0b0000010100110011#16 = .and 3#3 1#3 2#3 ∧
  decode 0b0000010100110100#16 = .slt 3#3 1#3 2#3 ∧ decode 0b0001110000001000#16 = .jr 7#3 0#6 ∧
  decode 0b0010010011111111#16 = .addi 1#3 1#3 0x7F#7 ∧ decode 0b0101111111111111#16 = .j 8191#13 ∧
  decode 0b0110000001100100#16 = .jal 100#13 ∧ decode 0b1000010100000101#16 = .lw 2#3 1#3 5#7 ∧
  decode 0b1010010101111111#16 = .sw 2#3 1#3 0x7F#7 ∧ decode 0b1100010100000011#16 = .jeq 1#3 2#3 3#7 ∧
  decode 0b1110010110000110#16 = .slti 3#3 1#3 6#7 ∧ decode 0b0000000000000101#16 = .undef5 0#3 0#3 0#3 ∧
  decode 0b0001111111111111#16 = .undef15 7#3 7#3 7#3

/-- Every output of the decoder is the unsigned value of its bits of the word (`w[hi:lo]`), the format follows from the opcode,
and the kind is the decoded instruction's. The port list is decision D11 and D22, the opcode numbers decision D1 (log 1). -/
def Obligations.DecoderPortsAreTheWordsBits : Prop :=
  ∀ w : Word,
    (decoderPorts w).opcode.toNat = w.toNat / 8192 ∧
    (decoderPorts w).regA.toNat = w.toNat / 1024 % 8 ∧
    (decoderPorts w).regB.toNat = w.toNat / 128 % 8 ∧
    (decoderPorts w).regDst.toNat = w.toNat / 16 % 8 ∧
    (decoderPorts w).func.toNat = w.toNat % 16 ∧
    (decoderPorts w).imm7.toNat = w.toNat % 128 ∧
    (decoderPorts w).addr13.toNat = w.toNat % 8192 ∧
    ((decoderPorts w).format = .R ↔ w.toNat / 8192 = 0) ∧
    ((decoderPorts w).format = .J ↔ w.toNat / 8192 = 2 ∨ w.toNat / 8192 = 3) ∧
    (decoderPorts w).kind = (decode w).kind

/-- The 7-bit field is sign-extended: bit 6 set ORs in 0xFF80, the signed value is in -64..63, the unsigned word in 0..63 or
65472..65535. -/
def Obligations.ImmediateFieldIsSignExtended : Prop :=
  ∀ w : Word,
    ((decoderPorts w).simm =
      if w.getLsbD 6 then BitVec.ofNat 16 (w.toNat % 128) ||| 0xFF80#16 else BitVec.ofNat 16 (w.toNat % 128)) ∧
    -64 ≤ signedValue (decoderPorts w).simm ∧ signedValue (decoderPorts w).simm ≤ 63 ∧
    ((decoderPorts w).simm.toNat ≤ 63 ∨ 65472 ≤ (decoderPorts w).simm.toNat)

/-- The tagged variant carries all the word's information: from its fields the word is built again (R135 is derived in the spec;
opcode numbers 2 and 3 of the jump form: log 1). -/
def Obligations.DecoderVariantHoldsTheWord : Prop :=
  ∀ w : Word,
    match decodeVariant w with
    | .RegisterOp a b d f => w = encodeRegisterForm f d a b
    | .ImmediateOp op a b simm =>
      op ≠ 0#3 ∧ op ≠ 2#3 ∧ op ≠ 3#3 ∧ ∃ imm : Imm7, simm = sext16 imm ∧ w = encodeImmediateForm op b a imm
    | .JumpOp op target => (op = 2#3 ∨ op = 3#3) ∧ w = encodeJumpForm op target

/-- Bits 9..4 of a jr word do not matter: two words of opcode 0 and func 8 with one regA execute alike (decision D3, log 3). -/
def Obligations.JrIgnoresItsUnusedBits : Prop :=
  ∀ (w w' : Word) (s : State), w.toNat / 8192 = 0 → w'.toNat / 8192 = 0 → w.toNat % 16 = 8 → w'.toNat % 16 = 8 →
    w.toNat / 1024 % 8 = w'.toNat / 1024 % 8 → exec (decode w) s = exec (decode w') s

/-! The step (spec/40_step.md). -/

/-- A step of a running machine with a legal configuration executes the instruction that the word of main memory at the program
counter decodes to; `exec` itself ends with the halt test and the advance, so nothing is added around it. -/
def Obligations.StepRunsTheDecodedInstruction : Prop :=
  ∀ (s : State) (i : Instr), s.cfg.Legal → s.halted = false → WellFormed i = true → decode (s.word s.pc) = i →
    step s = exec i s

/-- A halted machine's state stays as it is. That a step of it answers the same state is the model's choice (log 10). -/
def Obligations.HaltedMachineKeepsItsState : Prop :=
  ∀ s : State, s.cfg.Legal → s.halted = true → step s = .next s

/-- A configuration that breaks the legal values is refused: no step of it runs (decision D7, log 11). -/
def Obligations.IllegalConfigurationHasNoStep : Prop :=
  ∀ (s : State) (l : Level), l ∈ s.cache.levels →
    (l.cfg.size = 0 ∨ l.cfg.assoc = 0 ∨ l.cfg.blocksize = 0 ∨ l.cfg.size % (l.cfg.assoc * l.cfg.blocksize) ≠ 0) →
    step s = .refused .illegalConfiguration

/-- With a legal configuration and undefined words as no-operations (the spec's `undefFunc`, log 2), every running state has a next
state: no instruction raises an exception. A halted state has one too, itself, which is the model's choice (log 10): the spec gives
a halted machine no step. -/
def Obligations.EveryLegalStateHasANextState : Prop :=
  ∀ s : State, s.cfg.Legal → s.undefFunc = .nop → ∃ t, step s = .next t

/-- A running machine halts in a step exactly when the instruction transfers control to its own address, in the four ways the
spec lists; `pc` then keeps its value. -/
def Obligations.OnlySelfTransfersHalt : Prop :=
  ∀ s t : State, s.halted = false → step s = .next t →
    (t.halted = true ↔ haltsIn s s.fetch) ∧ (t.halted = true → t.pc = s.pc)

/-- A register changes in a step only if the executed instruction names it as its destination, or is jal and the register is 7. -/
def Obligations.OnlyTheDestinationRegisterChanges : Prop :=
  ∀ (s t : State) (r : RegId), step s = .next t → t.reg r ≠ s.reg r → destination s.fetch = some r

/-- Main memory is written only by sw, once, with the stored word at the effective address; every other step, its fills and
evictions included, leaves main memory as it is. -/
def Obligations.OnlyStoresWriteMainMemory : Prop :=
  ∀ s t : State, s.halted = false → step s = .next t →
    (∀ d b imm, s.fetch = .sw d b imm → t.mem = memWrite s.mem (effectiveAddr s b imm).toNat (s.reg d)) ∧
    ((∀ d b imm, s.fetch ≠ .sw d b imm) → t.mem = s.mem)

/-- The configuration is read-only for the whole run. -/
def Obligations.NoStepChangesTheConfiguration : Prop := ∀ s t : State, step s = .next t → t.cfg = s.cfg

/-- The event stream only grows: a step appends at most one record per configured level (the levels of its records are distinct
and configured, the single level of L1-only mode being `L1` by decision D6, log 13), each naming the step's own pc, and appends none
unless the instruction is lw or sw. -/
def Obligations.EventsAreOnlyAppended : Prop :=
  ∀ s t : State, step s = .next t →
    ∃ es : List Event, t.events = s.events ++ es ∧ es.length ≤ s.cfg.levels.length ∧ (es.map Event.level).Nodup ∧
      (∀ e ∈ es, e.pc = s.pc ∧ (e.level = .L2 → s.cfg.levels.length = 2)) ∧
      ((∀ d b imm, s.fetch ≠ .lw d b imm ∧ s.fetch ≠ .sw d b imm) → es = [])

/-! Registers (spec/10_state.md). -/

/-- Register 0 reads 0 in every state and a write to it changes nothing; every other register holds the last value written. -/
def Obligations.RegisterZeroIsHardWired : Prop :=
  ∀ (s : State) (v : Word),
    s.reg 0#3 = 0#16 ∧ s.setReg 0#3 v = s ∧
    ∀ r : RegId, r ≠ 0#3 → (s.setReg r v).reg r = v ∧ ∀ q : RegId, q ≠ r → (s.setReg r v).reg q = s.reg q

/-! The register form (spec/41_register_form.md). -/

/-- add: the wrapped sum in the destination, discarded for register 0; nothing else changes but the pc. -/
def Obligations.AddWritesTheWrappedSum : Prop :=
  ∀ (d a b : RegId) (s : State),
    decode (0#3 ++ a ++ b ++ d ++ 0#4 : BitVec 16) = .add d a b ∧
    ∃ t, exec (.add d a b) s = .next t ∧
      (t.reg d).toNat = (if d = 0#3 then 0 else ((s.reg a).toNat + (s.reg b).toNat) % 65536) ∧
      SameRegsExcept d s t ∧ SameMemory s t ∧ SameController s t ∧ GoesOn s t

/-- sub: the wrapped difference in the destination, discarded for register 0; nothing else changes but the pc. -/
def Obligations.SubWritesTheWrappedDifference : Prop :=
  ∀ (d a b : RegId) (s : State),
    decode (0#3 ++ a ++ b ++ d ++ 1#4 : BitVec 16) = .sub d a b ∧
    ∃ t, exec (.sub d a b) s = .next t ∧
      ((t.reg d).toNat : Int) = (if d = 0#3 then 0 else ((s.reg a).toNat - (s.reg b).toNat : Int) % 65536) ∧
      SameRegsExcept d s t ∧ SameMemory s t ∧ SameController s t ∧ GoesOn s t

/-- or: the bitwise OR in the destination, discarded for register 0; nothing else changes but the pc. -/
def Obligations.OrWritesTheBitwiseOr : Prop :=
  ∀ (d a b : RegId) (s : State),
    decode (0#3 ++ a ++ b ++ d ++ 2#4 : BitVec 16) = .or d a b ∧
    ∃ t, exec (.or d a b) s = .next t ∧
      (∀ k < 16, (t.reg d).getLsbD k = (d ≠ 0#3 && ((s.reg a).getLsbD k || (s.reg b).getLsbD k))) ∧
      SameRegsExcept d s t ∧ SameMemory s t ∧ SameController s t ∧ GoesOn s t

/-- and: the bitwise AND in the destination, discarded for register 0; nothing else changes but the pc. -/
def Obligations.AndWritesTheBitwiseAnd : Prop :=
  ∀ (d a b : RegId) (s : State),
    decode (0#3 ++ a ++ b ++ d ++ 3#4 : BitVec 16) = .and d a b ∧
    ∃ t, exec (.and d a b) s = .next t ∧
      (∀ k < 16, (t.reg d).getLsbD k = (d ≠ 0#3 && ((s.reg a).getLsbD k && (s.reg b).getLsbD k))) ∧
      SameRegsExcept d s t ∧ SameMemory s t ∧ SameController s t ∧ GoesOn s t

/-- slt: 1 or 0 by the two's-complement comparison, discarded for register 0; nothing else changes but the pc. -/
def Obligations.SltComparesSigned : Prop :=
  ∀ (d a b : RegId) (s : State),
    decode (0#3 ++ a ++ b ++ d ++ 4#4 : BitVec 16) = .slt d a b ∧
    ∃ t, exec (.slt d a b) s = .next t ∧
      (t.reg d).toNat = (if d ≠ 0#3 ∧ signedValue (s.reg a) < signedValue (s.reg b) then 1 else 0) ∧
      SameRegsExcept d s t ∧ SameMemory s t ∧ SameController s t ∧ GoesOn s t

/-- jr: the machine goes to the register's value modulo 8192 and halts if that is jr's own address; no register is written.
The ignored bits are decision D3 (log 3). -/
def Obligations.JrGoesToTheRegister : Prop :=
  ∀ (a : RegId) (ignored : BitVec 6) (s : State),
    ∃ t, exec (.jr a ignored) s = .next t ∧ SameRegs s t ∧ SameMemory s t ∧ SameController s t ∧
      Transfers s t (BitVec.ofNat 13 ((s.reg a).toNat % memSize))

/-- A word with an undefined func changes nothing but the pc under `undefFunc = nop`, and is refused under `undefFunc = refuse`
(the parameter and its default: decision D2, log 2). -/
def Obligations.UndefinedFuncDoesNothing : Prop :=
  ∀ (d a b : RegId) (s : State) (i : Instr),
    i ∈ [.undef5 d a b, .undef6 d a b, .undef7 d a b, .undef9 d a b, .undef10 d a b, .undef11 d a b, .undef12 d a b,
      .undef13 d a b, .undef14 d a b, .undef15 d a b] →
    (s.undefFunc = .nop →
      ∃ t, exec i s = .next t ∧ SameRegs s t ∧ SameMemory s t ∧ SameController s t ∧ GoesOn s t) ∧
    (s.undefFunc = .refuse → exec i s = .refused .undefinedFunction)

/-! The immediate form (spec/42_immediate_form.md). -/

/-- addi: the wrapped sum of the register and the sign-extended field (the opcode number: log 1). -/
def Obligations.AddiAddsTheSignedImmediate : Prop :=
  ∀ (t s : RegId) (imm : Imm7) (st : State),
    ∃ u, exec (.addi t s imm) st = .next u ∧
      ((u.reg t).toNat : Int) =
        (if t = 0#3 then 0 else ((st.reg s).toNat + signedValue (sext16 imm)) % 65536) ∧
      SameRegsExcept t st u ∧ SameMemory st u ∧ SameController st u ∧ GoesOn st u

/-- slti: 1 or 0 by the two's-complement comparison with the sign-extended field (the opcode number: log 1). -/
def Obligations.SltiComparesSigned : Prop :=
  ∀ (t s : RegId) (imm : Imm7) (st : State),
    ∃ u, exec (.slti t s imm) st = .next u ∧
      (u.reg t).toNat = (if t ≠ 0#3 ∧ signedValue (st.reg s) < signedValue (sext16 imm) then 1 else 0) ∧
      SameRegsExcept t st u ∧ SameMemory st u ∧ SameController st u ∧ GoesOn st u

/-- The effective address of lw and sw is the register plus the signed field, modulo 8192. -/
def Obligations.EffectiveAddressWraps : Prop :=
  ∀ (s : RegId) (imm : Imm7) (st : State),
    ((effectiveAddr st s imm).toNat : Int) = ((st.reg s).toNat + signedValue (sext16 imm)) % 8192

/-- lw: one `Load` at the effective address, for every destination; the destination receives the word of main memory there (in
every state that keeps the invariant), discarded for register 0; memory is unchanged. The opcode number: log 1. -/
def Obligations.LwLoadsTheMemoryWord : Prop :=
  ∀ (t s : RegId) (imm : Imm7) (st : State),
    ∃ u, exec (.lw t s imm) st = .next u ∧
      u.cache = (st.load (effectiveAddr st s imm)).2.cache ∧ u.events = (st.load (effectiveAddr st s imm)).2.events ∧
      (MachineInv st → u.reg t = if t = 0#3 then 0#16 else st.word (effectiveAddr st s imm)) ∧
      SameRegsExcept t st u ∧ SameMemory st u ∧ u.cfg = st.cfg ∧ GoesOn st u

/-- sw: one `Store` at the effective address; there memory holds the register's value, everywhere else it is unchanged (memory in
canonical form); no register is written. The opcode number: log 1. -/
def Obligations.SwStoresTheRegister : Prop :=
  ∀ (t s : RegId) (imm : Imm7) (st : State),
    ∃ u, exec (.sw t s imm) st = .next u ∧
      u.cache = (st.store (effectiveAddr st s imm) (st.reg t)).cache ∧
      u.events = (st.store (effectiveAddr st s imm) (st.reg t)).events ∧
      (st.mem.wf = true → ∀ a : Addr,
        u.word a = if a = effectiveAddr st s imm then st.reg t else st.word a) ∧
      SameRegs st u ∧ u.cfg = st.cfg ∧ GoesOn st u

/-- jeq: taken when the two registers are equal, to `pc + 1` plus the signed field modulo 8192; otherwise the next instruction.
The opcode number: log 1. -/
def Obligations.JeqBranchesOnEquality : Prop :=
  ∀ (a b : RegId) (imm : Imm7) (s : State),
    ∃ t, exec (.jeq a b imm) s = .next t ∧ SameRegs s t ∧ SameMemory s t ∧ SameController s t ∧
      (if s.reg a = s.reg b then
        Transfers s t (BitVec.ofInt 13 (s.pc.toNat + 1 + signedValue (sext16 imm)))
       else GoesOn s t)

/-! The jump form (spec/43_jump_form.md). -/

/-- j: the machine goes to the address field and halts if it is j's own address (the opcode number: log 1). -/
def Obligations.JGoesToTheAddress : Prop :=
  ∀ (target : Addr13) (s : State),
    ∃ t, exec (.j target) s = .next t ∧ SameRegs s t ∧ SameMemory s t ∧ SameController s t ∧ Transfers s t target

/-- jal: register 7 receives `pc + 1`, not reduced (8192 at address 8191: decision D9, log 9), also when jal halts; then as j.
The opcode number: log 1. -/
def Obligations.JalLinksAndGoes : Prop :=
  ∀ (target : Addr13) (s : State),
    ∃ t, exec (.jal target) s = .next t ∧ (t.reg 7#3).toNat = s.pc.toNat + 1 ∧
      SameRegsExcept 7#3 s t ∧ SameMemory s t ∧ SameController s t ∧ Transfers s t target

/-! The cache controller (spec/20_memory.md). -/

/-- The fill of a block reads main memory at addresses modulo 8192 (decision D8, log 8). -/
def Obligations.FillReadsTheBlockFromMemory : Prop :=
  ∀ (m : Memory) (c : LevelConfig) (id : Nat),
    (fillBlock m c id).length = c.blocksize ∧
    ∀ i < c.blocksize, (fillBlock m c id)[i]? = some (m.lookup ((id * c.blocksize + i) % 8192))

/-- A promotion moves the entry of the tag to the head of its row and keeps the order of the others and every data list; no other
row changes. -/
def Obligations.PromoteMovesTheEntryToTheHead : Prop :=
  ∀ (l : Level) (r : Nat) (before after : Row) (e : Entry), r < l.rows.length →
    l.row r = before ++ e :: after → (∀ x ∈ before, x.tag ≠ e.tag) →
    (l.promote r e.tag).row r = e :: (before ++ after) ∧ (∀ q, q ≠ r → (l.promote r e.tag).row q = l.row q) ∧
    (l.promote r e.tag).cfg = l.cfg

/-- An allocation evicts the last entry of a full row, and of no other row, and then inserts the block of the address at the
head. -/
def Obligations.AllocateEvictsTheLastAndInsertsAtTheHead : Prop :=
  ∀ (m : Memory) (l : Level) (a : Addr), LevelWf l → ¬Hits l a →
    (∀ (kept : Row) (last : Entry), l.row (rowIndexOf l.cfg a) = kept ++ [last] → (kept ++ [last]).length = l.cfg.assoc →
      (l.allocate m a).row (rowIndexOf l.cfg a) =
        ⟨tagOf l.cfg a, fillBlock m l.cfg (blockIdOf l.cfg a)⟩ :: kept) ∧
    ((l.row (rowIndexOf l.cfg a)).length ≠ l.cfg.assoc →
      (l.allocate m a).row (rowIndexOf l.cfg a) =
        ⟨tagOf l.cfg a, fillBlock m l.cfg (blockIdOf l.cfg a)⟩ :: l.row (rowIndexOf l.cfg a)) ∧
    (∀ q, q ≠ rowIndexOf l.cfg a → (l.allocate m a).row q = l.row q)

/-- A load on one level: a hit promotes and takes the stored word at the offset; a miss allocates and takes the word of the
block it fetched, main memory's. -/
def Obligations.LevelLoadHitsOrFills : Prop :=
  ∀ (m : Memory) (l : Level) (a : Addr), LevelWf l →
    (∀ e ∈ l.row (rowIndexOf l.cfg a), e.tag = tagOf l.cfg a →
      l.load m a = (l.promote (rowIndexOf l.cfg a) (tagOf l.cfg a), .HIT) ∧
      e.data[offsetOf l.cfg a]? = some ((l.load m a).1.headWord a)) ∧
    (¬Hits l a → l.load m a = (l.allocate m a, .MISS) ∧ (l.load m a).1.headWord a = memRead m a.toNat)

/-- A store on one level, its memory write done: a hit replaces the word in the entry and promotes it; a miss allocates from the
memory after the write. -/
def Obligations.LevelStoreUpdatesOrAllocates : Prop :=
  ∀ (m : Memory) (l : Level) (a : Addr) (v : Word), LevelWf l → memRead m a.toNat = v →
    (∀ (before after : Row) (e : Entry), l.row (rowIndexOf l.cfg a) = before ++ e :: after → e.tag = tagOf l.cfg a →
      (l.store m a v).row (rowIndexOf l.cfg a) =
        ⟨e.tag, e.data.set (offsetOf l.cfg a) v⟩ :: (before ++ after) ∧
      ∀ q, q ≠ rowIndexOf l.cfg a → (l.store m a v).row q = l.row q) ∧
    (¬Hits l a → l.store m a v = l.allocate m a ∧ (l.store m a v).headWord a = v)

/-- A load or a store of a level changes no row but the accessed address's, and neither does L2's part in a load that missed
L1. -/
def Obligations.OnlyTheAddressedRowChanges : Prop :=
  ∀ (m : Memory) (l : Level) (a : Addr) (v : Word) (promotes : Bool) (q : Nat), q ≠ rowIndexOf l.cfg a →
    (l.load m a).1.row q = l.row q ∧ (l.store m a v).row q = l.row q ∧
    (l.afterUpperMiss m promotes a).1.row q = l.row q

/-- An L1 hit in two-level mode: one event `(L1, HIT)`, and L2 is not touched. -/
def Obligations.UpperHitLeavesTheLowerLevel : Prop :=
  ∀ (s : State) (l1 l2 : Level) (a : Addr), s.cache = .twoLevel l1 l2 → Hits l1 a →
    (s.load a).2.cache = .twoLevel (l1.load s.mem a).1 l2 ∧
    (s.load a).2.events = s.events ++ [⟨.L1, .HIT, s.pc, a, rowIndexOf l1.cfg a⟩]

/-- An L1 miss in two-level mode: two events, L1's first; L1 is filled from main memory whatever L2 did; L2 is filled on a miss.
On an L2 hit L2 is not refilled, and promoted only under `l2HitPromotes` (the open parameter D4, log 4: both values). -/
def Obligations.UpperMissFillsFromMemory : Prop :=
  ∀ (s : State) (l1 l2 : Level) (a : Addr), s.cache = .twoLevel l1 l2 → ¬Hits l1 a →
    (¬Hits l2 a →
      (s.load a).2.cache = .twoLevel (l1.allocate s.mem a) (l2.allocate s.mem a) ∧
      (s.load a).2.events = s.events ++ [⟨.L1, .MISS, s.pc, a, rowIndexOf l1.cfg a⟩] ++
        [⟨.L2, .MISS, s.pc, a, rowIndexOf l2.cfg a⟩]) ∧
    (Hits l2 a →
      (s.load a).2.cache = .twoLevel (l1.allocate s.mem a)
        (if s.l2HitPromotes then l2.promote (rowIndexOf l2.cfg a) (tagOf l2.cfg a) else l2) ∧
      (s.load a).2.events = s.events ++ [⟨.L1, .MISS, s.pc, a, rowIndexOf l1.cfg a⟩] ++
        [⟨.L2, .HIT, s.pc, a, rowIndexOf l2.cfg a⟩])

/-- On an L1 miss and an L2 hit every row of L2 keeps its entries and their data, for both values of `l2HitPromotes` (log 4). -/
def Obligations.LowerHitKeepsItsEntries : Prop :=
  ∀ (m : Memory) (promotes : Bool) (l : Level) (a : Addr), LevelWf l → Hits l a →
    ∀ r, ((l.afterUpperMiss m promotes a).1.row r).Perm (l.row r)

/-- A load without levels reads main memory and changes nothing; with one level it is that level's load and one event, whose
level is named `L1` (decision D6, log 13). -/
def Obligations.LoadWithoutAndWithOneLevel : Prop :=
  ∀ (s : State) (a : Addr),
    (s.cache = .noCache → s.load a = (s.word a, s)) ∧
    ∀ l1, s.cache = .oneLevel l1 →
      (s.load a).1 = (l1.load s.mem a).1.headWord a ∧ (s.load a).2.cache = .oneLevel (l1.load s.mem a).1 ∧
      ((Hits l1 a ∧ (s.load a).2.events = s.events ++ [⟨.L1, .HIT, s.pc, a, rowIndexOf l1.cfg a⟩]) ∨
       (¬Hits l1 a ∧ (s.load a).2.events = s.events ++ [⟨.L1, .MISS, s.pc, a, rowIndexOf l1.cfg a⟩]))

/-- A store writes main memory first and then updates every configured level with the memory after the write, one `SW` event
per level, L1's first (event order and the status in L1-only mode: decisions D5 and D6, log 13). -/
def Obligations.StoreWritesThroughEveryLevel : Prop :=
  ∀ (s : State) (a : Addr) (v : Word),
    (s.store a v).mem = memWrite s.mem a.toNat v ∧
    (s.cache = .noCache → (s.store a v).cache = .noCache ∧ (s.store a v).events = s.events) ∧
    (∀ l1, s.cache = .oneLevel l1 →
      (s.store a v).cache = .oneLevel (l1.store (memWrite s.mem a.toNat v) a v) ∧
      (s.store a v).events = s.events ++ [⟨.L1, .SW, s.pc, a, rowIndexOf l1.cfg a⟩]) ∧
    (∀ l1 l2, s.cache = .twoLevel l1 l2 →
      (s.store a v).cache =
        .twoLevel (l1.store (memWrite s.mem a.toNat v) a v) (l2.store (memWrite s.mem a.toNat v) a v) ∧
      (s.store a v).events = s.events ++ [⟨.L1, .SW, s.pc, a, rowIndexOf l1.cfg a⟩] ++
        [⟨.L2, .SW, s.pc, a, rowIndexOf l2.cfg a⟩])

/-- A load after a store returns the stored word at its address and the old word elsewhere, in every mode. -/
def Obligations.LoadReturnsTheLastStore : Prop :=
  ∀ (s : State) (a b : Addr) (v : Word), MachineInv s →
    ((s.store a v).load b).1 = if b = a then v else s.word b

/-- The tags a level of the invariant holds are bounded by the configuration. -/
def Obligations.TagsAreBounded : Prop :=
  ∀ (s : State) (l : Level) (r : Nat) (e : Entry), MachineInv s → l ∈ s.cache.levels → r < l.rows.length → e ∈ l.row r →
    e.tag ≤ 8191 / l.cfg.blocksize / l.cfg.rowCount

/-- LRU for loads of one level: after any sequence of loads on an empty level, each row holds exactly the tags most recently loaded
there, most recent first, as many as the associativity allows: the victim is always the least recently accessed. (`List.dedup`
keeps the last occurrence of each tag.) Stores and the two levels of a machine: EveryStepKeepsTheLruOrder below. -/
def Obligations.RowsHoldTheMostRecentTags : Prop :=
  ∀ (m : Memory) (c : LevelConfig) (accesses : List Addr) (r : Nat), c.Legal → r < c.rowCount →
    (((accesses.foldl (fun l a => (l.load m a).1) (emptyLevel c)).row r).map Entry.tag) =
      ((((accesses.filter (fun a => rowIndexOf c a == r)).map (tagOf c)).dedup).reverse).take c.assoc

/-! The invariant, coherence and transparency (spec/10_state.md R48, spec/20_memory.md R96). -/

/-- The state after reset keeps the invariant. -/
def Obligations.ResetKeepsTheInvariant : Prop := MachineInv State.reset

/-- The start of a run keeps the invariant, for every legal configuration and every image that fits. -/
def Obligations.EveryStartKeepsTheInvariant : Prop :=
  ∀ (cfg : Config) (image : List Word), cfg.Legal → image.length ≤ 8192 → MachineInv (startState cfg image)

/-- Every step keeps the invariant: main memory in canonical form, the row invariants, and coherence of every level with main
memory. -/
def Obligations.EveryStepKeepsTheInvariant : Prop := ∀ s t : State, MachineInv s → step s = .next t → MachineInv t

/-- The caches are transparent to a step: two states that keep the invariant and agree on registers, pc, memory, run state and
`undefFunc` step to states that agree on them, whatever their cache configurations, cache rows and events are. (On halted states,
whose step keeps the state, this rests on log 10.) -/
def Obligations.CachesAreTransparentToAStep : Prop :=
  ∀ s s' : State, MachineInv s → MachineInv s' → s.view = s'.view → viewAfter (step s) = viewAfter (step s')

/-- The caches are transparent to a run: an image run under two legal configurations (one `undefFunc`) agrees on registers, pc,
memory and run state after every number of steps. Steps after a halt are counted too, and there both runs keep their states: that
a halted machine has such a step is the model's choice (log 10). -/
def Obligations.CachesAreTransparentToARun : Prop :=
  ∀ (cfg cfg' : Config) (image : List Word) (k : Nat), cfg.Legal → cfg'.Legal → cfg.undefFunc = cfg'.undefFunc →
    image.length ≤ 8192 →
    viewAfter (Host.Core.run core k (startState cfg image)) = viewAfter (Host.Core.run core k (startState cfg' image))

/-- Self-modifying code: a word stored by sw to the next address is the word the very next step executes. -/
def Obligations.StoredWordIsExecutedNext : Prop :=
  ∀ (s t : State) (r b : RegId) (imm : Imm7), MachineInv s → s.halted = false → s.fetch = .sw r b imm →
    effectiveAddr s b imm = s.pc + 1#13 → step s = .next t → step t = exec (decode (s.reg r)) t

/-! Reset and launch (spec/10_state.md R52, spec/70_reset_and_hazards.md). -/

/-- The start of a run: every register 0, pc 0 (derived in the spec, log 24), running, no events, every row of every configured
level empty, the image's words from address 0 on and 0 beyond it (decision D10, log 6). Every launch that has a run starts it in
such a state, with a legal configuration and the words of its lines (the bit order: log 18). -/
def Obligations.StartOfARun : Prop :=
  (∀ (cfg : Config) (image : List Word), cfg.Legal → image.length ≤ 8192 →
    (∀ r, (startState cfg image).reg r = 0#16) ∧ (startState cfg image).pc = 0#13 ∧
    (startState cfg image).halted = false ∧ (startState cfg image).events = [] ∧ (startState cfg image).cfg = cfg ∧
    (∀ a : Addr, (startState cfg image).word a = image.getD a.toNat 0#16) ∧
    (∀ l ∈ (startState cfg image).cache.levels, l.rows = List.replicate l.cfg.rowCount [])) ∧
  ∀ (args : Option (List Nat)) (lines : List ImageLine) (p : Bool) (u : UndefFunc) (s : State),
    launch args lines p u = .ok s →
    ∃ cfg image, cfg.Legal ∧ image.length ≤ 8192 ∧ ImageWords lines image ∧ s = startState cfg image

/-- A launch has a run only for an image whose line `k` has address `k`, below 8192, and sixteen bits. -/
def Obligations.BadImageHasNoRun : Prop :=
  ∀ (args : Option (List Nat)) (lines : List ImageLine) (p : Bool) (u : UndefFunc) (k : Nat) (line : ImageLine),
    lines[k]? = some line → line.addr ≠ k ∨ 8192 ≤ line.addr ∨ line.bits.length ≠ 16 →
    ∀ s, launch args lines p u ≠ .ok s

/-- A cache argument of other than 3 or 6 numbers is an error and starts no run; no argument gives no-cache mode, 3 numbers
L1-only mode, 6 two-level mode with L1 first. With legal numbers (decision D7, log 11) and a well-formed image the launch does have a
run, from the start state of that configuration and the image's words (an image with no lines included: decision D19, log 18). -/
def Obligations.CacheArgumentSelectsTheMode : Prop :=
  ∀ (args : List Nat) (lines : List ImageLine) (p : Bool) (u : UndefFunc),
    (args.length ≠ 3 ∧ args.length ≠ 6 → launch (some args) lines p u = .error .cacheArgumentCount) ∧
    (∀ s, launch none lines p u = .ok s → s.cfg = ⟨[], p, u⟩) ∧
    (∀ s x y z, args = [x, y, z] → launch (some args) lines p u = .ok s → s.cfg = ⟨[⟨x, y, z⟩], p, u⟩) ∧
    (∀ s x y z x' y' z', args = [x, y, z, x', y', z'] → launch (some args) lines p u = .ok s →
      s.cfg = ⟨[⟨x, y, z⟩, ⟨x', y', z'⟩], p, u⟩) ∧
    (ImageWf lines →
      (∃ words, ImageWords lines words ∧ launch none lines p u = .ok (startState ⟨[], p, u⟩ words)) ∧
      (∀ x y z, args = [x, y, z] → LevelConfig.Legal ⟨x, y, z⟩ →
        ∃ words, ImageWords lines words ∧ launch (some args) lines p u = .ok (startState ⟨[⟨x, y, z⟩], p, u⟩ words)) ∧
      (∀ x y z x' y' z', args = [x, y, z, x', y', z'] → LevelConfig.Legal ⟨x, y, z⟩ → LevelConfig.Legal ⟨x', y', z'⟩ →
        ∃ words, ImageWords lines words ∧
          launch (some args) lines p u = .ok (startState ⟨[⟨x, y, z⟩, ⟨x', y', z'⟩], p, u⟩ words)))

/-- Line `k` of an image gives word `k` of memory, its first character as bit 15 and its last as bit 0 (the bit order: log 18). For
an argument whose levels are legal (decision D7, log 11), a well-formed image has a run, from the start state of its words. -/
def Obligations.ImageLinesAreMemoryWords : Prop :=
  ∀ (args : Option (List Nat)) (lines : List ImageLine) (p : Bool) (u : UndefFunc),
    (∀ s, launch args lines p u = .ok s →
      lines.length ≤ 8192 ∧
      ∀ (k : Nat) (line : ImageLine), lines[k]? = some line →
        ∀ i < 16, line.bits[i]? = some ((memRead s.mem k).getLsbD (15 - i))) ∧
    (∀ levels, levelsOfArgs args = .ok levels → Config.Legal ⟨levels, p, u⟩ → ImageWf lines →
      ∃ words, ImageWords lines words ∧ launch args lines p u = .ok (startState ⟨levels, p, u⟩ words))

/-! Least recently used, for the whole machine (spec/10_state.md R47, spec/20_memory.md R73 to R77, R82 to R88). -/

/-- The start of a run keeps the LRU order: nothing accessed, every row empty. -/
def Obligations.EveryStartKeepsTheLruOrder : Prop :=
  ∀ (cfg : Config) (image : List Word), cfg.Legal → image.length ≤ 8192 → LruInv (startState cfg image)

/-- Every step keeps the LRU order: in every configured level each row's tags are the tags most recently accessed there, most recent
first, as many as the associativity allows, where the accesses are those of the event stream. So an access inserts or promotes its
tag, and the victim is the least recently accessed. An L2 hit of a load that missed L1 counts as an access only under
`l2HitPromotes` (the open parameter D4, log 4: both values). -/
def Obligations.EveryStepKeepsTheLruOrder : Prop :=
  ∀ s t : State, MachineInv s → LruInv s → step s = .next t → LruInv t
end

