-- ==== Sys2Proof/Laws/Memory.lean ====
section
/-! SUPPORT. Main memory: the canonical form is kept by every operation, and reads after writes (spec/10_state.md R39). -/

namespace Sys2Proof.Machine

/-- The canonical form, one cell at a time. -/
theorem Memory.wf_cons (a : Nat) (v : Word) (m : Memory) :
    Memory.wf ((a, v) :: m) = true ↔
      a < memSize ∧ v ≠ Memory.unlisted ∧ (∀ c ∈ m, a < c.1) ∧ Memory.wf m = true := by
  induction m generalizing a v with
  | nil => simp [Memory.wf]
  | cons c rest ih =>
    obtain ⟨b, w⟩ := c
    rw [Memory.wf, Bool.and_eq_true, Bool.and_eq_true, ih b w]
    simp only [decide_eq_true_eq, bne_iff_ne, List.mem_cons, forall_eq_or_imp]
    constructor
    · rintro ⟨⟨hab, hv⟩, hb, hw, hr, hwf⟩
      exact ⟨by omega, hv, ⟨hab, fun c hc => lt_trans hab (hr c hc)⟩, hb, hw, hr, hwf⟩
    · rintro ⟨_, hv, ⟨hab, _⟩, hb, hw, hr, hwf⟩
      exact ⟨⟨hab, hv⟩, hb, hw, hr, hwf⟩

theorem Memory.lookup_of_all_above (m : Memory) (a : Nat) (h : ∀ c ∈ m, a < c.1) : m.lookup a = Memory.unlisted := by
  induction m with
  | nil => rfl
  | cons c rest ih =>
    have := h c (by simp)
    rw [Memory.lookup, if_neg (by omega)]
    exact ih (fun d hd => h d (by simp [hd]))

theorem Memory.lookup_cons (a : Nat) (v : Word) (m : Memory) (q : Nat) (h : ∀ c ∈ m, a < c.1) :
    (Memory.cons a v m).lookup q = if q = a then v else m.lookup q := by
  unfold Memory.cons
  by_cases hv : v = Memory.unlisted
  · rw [if_pos hv]
    split
    · subst_vars; exact Memory.lookup_of_all_above m _ h
    · rfl
  · rw [if_neg hv, Memory.lookup]
    simp [eq_comm]

theorem Memory.mem_cons {a : Nat} {v : Word} {m : Memory} {c : Cell} (h : c ∈ Memory.cons a v m) :
    c = (a, v) ∨ c ∈ m := by
  unfold Memory.cons at h; split at h <;> simp_all

theorem Memory.wf_of_cons (a : Nat) (v : Word) (m : Memory) (ha : a < memSize) (hm : ∀ c ∈ m, a < c.1)
    (hw : m.wf = true) : (Memory.cons a v m).wf = true := by
  unfold Memory.cons
  split
  · exact hw
  · exact (Memory.wf_cons _ _ _).mpr ⟨ha, by assumption, hm, hw⟩

theorem Memory.mem_insert {m : Memory} {a : Nat} {v : Word} {c : Cell} (h : c ∈ m.insert a v) :
    c = (a, v) ∨ c ∈ m := by
  induction m with
  | nil => exact Memory.mem_cons h
  | cons k rest ih =>
    rw [Memory.insert] at h
    split at h
    · exact Memory.mem_cons h
    · split at h
      · exact (Memory.mem_cons h).imp id (fun h => by simp [h])
      · rcases List.mem_cons.mp h with h | h
        · simp [h]
        · exact (ih h).imp id (fun h => by simp [h])

/-- A write keeps the canonical form. -/
theorem Memory.wf_insert (m : Memory) (a : Nat) (v : Word) (ha : a < memSize) (hw : m.wf = true) :
    (m.insert a v).wf = true := by
  induction m with
  | nil => exact Memory.wf_of_cons a v [] ha (by simp) rfl
  | cons k rest ih =>
    obtain ⟨k, w⟩ := k
    have h := (Memory.wf_cons _ _ _).mp hw
    rw [Memory.insert]
    split
    · refine Memory.wf_of_cons a v _ ha ?_ hw
      intro c hc
      rcases List.mem_cons.mp hc with rfl | hc
      · assumption
      · exact lt_trans ‹_› (h.2.2.1 c hc)
    · split
      · subst_vars; exact Memory.wf_of_cons _ v _ ha h.2.2.1 h.2.2.2
      · refine (Memory.wf_cons _ _ _).mpr ⟨h.1, h.2.1, fun c hc => ?_, ih h.2.2.2⟩
        rcases Memory.mem_insert hc with rfl | hc
        · simp; omega
        · exact h.2.2.1 c hc

/-- A read after a write: the written word there, the old words elsewhere. -/
theorem Memory.lookup_insert (m : Memory) (a : Nat) (v : Word) (q : Nat) (hw : m.wf = true) :
    (m.insert a v).lookup q = if q = a then v else m.lookup q := by
  induction m with
  | nil => exact Memory.lookup_cons a v [] q (by simp)
  | cons k rest ih =>
    obtain ⟨k, w⟩ := k
    have h := (Memory.wf_cons _ _ _).mp hw
    rw [Memory.insert]
    split
    · refine Memory.lookup_cons a v _ q ?_
      intro c hc
      rcases List.mem_cons.mp hc with rfl | hc
      · assumption
      · exact lt_trans ‹_› (h.2.2.1 c hc)
    · split
      · subst_vars
        rw [Memory.lookup_cons _ v _ q h.2.2.1, Memory.lookup]
        by_cases hq : q = k <;> simp [hq, eq_comm]
      · rw [Memory.lookup, Memory.lookup, ih h.2.2.2]
        by_cases hq : k = q
        · subst hq; rw [if_pos rfl, if_pos rfl, if_neg (by omega)]
        · rw [if_neg hq, if_neg hq]

/-- Two memories in canonical form that read alike are the same list. -/
theorem Memory.ext_lookup (m n : Memory) (hm : m.wf = true) (hn : n.wf = true) (h : ∀ a, m.lookup a = n.lookup a) :
    m = n := by
  induction m generalizing n with
  | nil =>
    cases n with
    | nil => rfl
    | cons c n =>
      have hc := ((Memory.wf_cons c.1 c.2 n).mp hn).2.1
      exact absurd (by simpa [Memory.lookup] using (h c.1).symm) hc
  | cons c m ih =>
    obtain ⟨a, v⟩ := c
    have h1 := (Memory.wf_cons _ _ _).mp hm
    cases n with
    | nil => exact absurd (by simpa [Memory.lookup] using h a) h1.2.1
    | cons d n =>
      obtain ⟨b, w⟩ := d
      have h2 := (Memory.wf_cons _ _ _).mp hn
      have hab : a = b := by
        rcases Nat.lt_trichotomy a b with hlt | heq | hgt
        · have := h a
          rw [Memory.lookup, if_pos rfl, Memory.lookup_of_all_above ((b, w) :: n) a] at this
          · exact absurd this h1.2.1
          · intro c hc
            rcases List.mem_cons.mp hc with rfl | hc
            · exact hlt
            · exact lt_trans hlt (h2.2.2.1 c hc)
        · exact heq
        · have := h b
          rw [Memory.lookup_of_all_above ((a, v) :: m) b, Memory.lookup, if_pos rfl] at this
          · exact absurd this.symm h2.2.1
          · intro c hc
            rcases List.mem_cons.mp hc with rfl | hc
            · exact hgt
            · exact lt_trans hgt (h1.2.2.1 c hc)
      subst hab
      have hv : v = w := by simpa [Memory.lookup] using h a
      subst hv
      refine congrArg _ (ih n h1.2.2.2 h2.2.2.2 (fun q => ?_))
      by_cases hq : q = a
      · subst hq
        rw [Memory.lookup_of_all_above m q h1.2.2.1, Memory.lookup_of_all_above n q h2.2.2.1]
      · simpa [Memory.lookup, Ne.symm hq] using h q

theorem memRead_mod (m : Memory) (a : Nat) : memRead m (a % memSize) = memRead m a := by
  simp [memRead]

theorem memWrite_wf (m : Memory) (a : Nat) (v : Word) (hw : m.wf = true) : (memWrite m a v).wf = true :=
  Memory.wf_insert m _ v (Nat.mod_lt _ (by decide)) hw

theorem memRead_memWrite (m : Memory) (a : Nat) (v : Word) (q : Nat) (hw : m.wf = true) :
    memRead (memWrite m a v) q = if q % memSize = a % memSize then v else memRead m q :=
  Memory.lookup_insert m _ v _ hw

/-- Two memories in canonical form that every `MemRead` reads alike are the same list. -/
theorem memory_eq_of_memRead (m n : Memory) (hm : m.wf = true) (hn : n.wf = true)
    (h : ∀ a < memSize, memRead m a = memRead n a) : m = n := by
  have out : ∀ (m : Memory) (a : Nat), m.wf = true → memSize ≤ a → m.lookup a = Memory.unlisted := by
    intro m a hm ha
    induction m with
    | nil => rfl
    | cons c rest ih =>
      have hc := (Memory.wf_cons c.1 c.2 rest).mp hm
      rw [Memory.lookup, if_neg (by omega)]
      exact ih hc.2.2.2
  refine Memory.ext_lookup m n hm hn (fun a => ?_)
  by_cases ha : a < memSize
  · simpa [memRead, Nat.mod_eq_of_lt ha] using h a ha
  · rw [out m a hm (by omega), out n a hn (by omega)]

/-! Memory at the start of a run. -/

theorem mem_memoryOfWords {k : Nat} {ws : List Word} {c : Cell} (h : c ∈ memoryOfWords k ws) : k ≤ c.1 := by
  induction ws generalizing k with
  | nil => simp [memoryOfWords] at h
  | cons w ws ih =>
    rcases Memory.mem_cons h with rfl | h
    · simp
    · have := ih h; omega

/-- An image that fits gives a memory in canonical form. -/
theorem memoryOfWords_wf (k : Nat) (ws : List Word) (h : k + ws.length ≤ memSize) :
    (memoryOfWords k ws).wf = true := by
  induction ws generalizing k with
  | nil => rfl
  | cons w ws ih =>
    simp only [List.length_cons] at h
    exact Memory.wf_of_cons k w _ (by omega) (fun c hc => mem_memoryOfWords hc) (ih (k + 1) (by omega))

/-- Word `a` of an image loaded from address `k`; 0 beyond the image. -/
theorem lookup_memoryOfWords (k : Nat) (ws : List Word) (a : Nat) :
    (memoryOfWords k ws).lookup a = if k ≤ a then ws.getD (a - k) 0#16 else 0#16 := by
  induction ws generalizing k with
  | nil => simp [memoryOfWords, Memory.lookup]
  | cons w ws ih =>
    rw [memoryOfWords, Memory.lookup_cons _ _ _ _ (fun c hc => mem_memoryOfWords hc), ih]
    rcases Nat.lt_trichotomy a k with h | h | h
    · simp [Nat.not_le.mpr h, Nat.ne_of_lt h, show ¬ k + 1 ≤ a by omega]
    · simp [h]
    · simp [Nat.ne_of_gt h, show k + 1 ≤ a by omega, Nat.le_of_lt h, show a - k = (a - (k + 1)) + 1 by omega]

end Sys2Proof.Machine
end

