-- ==== Sys2Proof/Laws/State.lean ====
section
/-! SUPPORT. One lemma per field per update of State, the register laws, and the fields after the end of a step. -/

namespace Sys2Proof.Machine

@[simp] theorem State.setReg_regs (s : State) (r : RegId) (v : Word) : (s.setReg r v).regs = s.regs.set r v := rfl
@[simp] theorem State.setReg_pc (s : State) (r : RegId) (v : Word) : (s.setReg r v).pc = s.pc := rfl
@[simp] theorem State.setReg_mem (s : State) (r : RegId) (v : Word) : (s.setReg r v).mem = s.mem := rfl
@[simp] theorem State.setReg_halted (s : State) (r : RegId) (v : Word) : (s.setReg r v).halted = s.halted := rfl
@[simp] theorem State.setReg_cache (s : State) (r : RegId) (v : Word) : (s.setReg r v).cache = s.cache := rfl
@[simp] theorem State.setReg_l2HitPromotes (s : State) (r : RegId) (v : Word) : (s.setReg r v).l2HitPromotes = s.l2HitPromotes := rfl
@[simp] theorem State.setReg_undefFunc (s : State) (r : RegId) (v : Word) : (s.setReg r v).undefFunc = s.undefFunc := rfl
@[simp] theorem State.setReg_events (s : State) (r : RegId) (v : Word) : (s.setReg r v).events = s.events := rfl

@[simp] theorem State.setPc_regs (s : State) (p : Addr) : (s.setPc p).regs = s.regs := rfl
@[simp] theorem State.setPc_pc (s : State) (p : Addr) : (s.setPc p).pc = p := rfl
@[simp] theorem State.setPc_mem (s : State) (p : Addr) : (s.setPc p).mem = s.mem := rfl
@[simp] theorem State.setPc_halted (s : State) (p : Addr) : (s.setPc p).halted = s.halted := rfl
@[simp] theorem State.setPc_cache (s : State) (p : Addr) : (s.setPc p).cache = s.cache := rfl
@[simp] theorem State.setPc_l2HitPromotes (s : State) (p : Addr) : (s.setPc p).l2HitPromotes = s.l2HitPromotes := rfl
@[simp] theorem State.setPc_undefFunc (s : State) (p : Addr) : (s.setPc p).undefFunc = s.undefFunc := rfl
@[simp] theorem State.setPc_events (s : State) (p : Addr) : (s.setPc p).events = s.events := rfl

@[simp] theorem State.setHalted_regs (s : State) : (s.setHalted).regs = s.regs := rfl
@[simp] theorem State.setHalted_pc (s : State) : (s.setHalted).pc = s.pc := rfl
@[simp] theorem State.setHalted_mem (s : State) : (s.setHalted).mem = s.mem := rfl
@[simp] theorem State.setHalted_halted (s : State) : (s.setHalted).halted = true := rfl
@[simp] theorem State.setHalted_cache (s : State) : (s.setHalted).cache = s.cache := rfl
@[simp] theorem State.setHalted_l2HitPromotes (s : State) : (s.setHalted).l2HitPromotes = s.l2HitPromotes := rfl
@[simp] theorem State.setHalted_undefFunc (s : State) : (s.setHalted).undefFunc = s.undefFunc := rfl
@[simp] theorem State.setHalted_events (s : State) : (s.setHalted).events = s.events := rfl

@[simp] theorem State.setMem_regs (s : State) (m : Memory) : (s.setMem m).regs = s.regs := rfl
@[simp] theorem State.setMem_pc (s : State) (m : Memory) : (s.setMem m).pc = s.pc := rfl
@[simp] theorem State.setMem_mem (s : State) (m : Memory) : (s.setMem m).mem = m := rfl
@[simp] theorem State.setMem_halted (s : State) (m : Memory) : (s.setMem m).halted = s.halted := rfl
@[simp] theorem State.setMem_cache (s : State) (m : Memory) : (s.setMem m).cache = s.cache := rfl
@[simp] theorem State.setMem_l2HitPromotes (s : State) (m : Memory) : (s.setMem m).l2HitPromotes = s.l2HitPromotes := rfl
@[simp] theorem State.setMem_undefFunc (s : State) (m : Memory) : (s.setMem m).undefFunc = s.undefFunc := rfl
@[simp] theorem State.setMem_events (s : State) (m : Memory) : (s.setMem m).events = s.events := rfl

@[simp] theorem State.setCache_regs (s : State) (h : Hierarchy) : (s.setCache h).regs = s.regs := rfl
@[simp] theorem State.setCache_pc (s : State) (h : Hierarchy) : (s.setCache h).pc = s.pc := rfl
@[simp] theorem State.setCache_mem (s : State) (h : Hierarchy) : (s.setCache h).mem = s.mem := rfl
@[simp] theorem State.setCache_halted (s : State) (h : Hierarchy) : (s.setCache h).halted = s.halted := rfl
@[simp] theorem State.setCache_cache (s : State) (h : Hierarchy) : (s.setCache h).cache = h := rfl
@[simp] theorem State.setCache_l2HitPromotes (s : State) (h : Hierarchy) : (s.setCache h).l2HitPromotes = s.l2HitPromotes := rfl
@[simp] theorem State.setCache_undefFunc (s : State) (h : Hierarchy) : (s.setCache h).undefFunc = s.undefFunc := rfl
@[simp] theorem State.setCache_events (s : State) (h : Hierarchy) : (s.setCache h).events = s.events := rfl

@[simp] theorem State.emit_regs (s : State) (e : Event) : (s.emit e).regs = s.regs := rfl
@[simp] theorem State.emit_pc (s : State) (e : Event) : (s.emit e).pc = s.pc := rfl
@[simp] theorem State.emit_mem (s : State) (e : Event) : (s.emit e).mem = s.mem := rfl
@[simp] theorem State.emit_halted (s : State) (e : Event) : (s.emit e).halted = s.halted := rfl
@[simp] theorem State.emit_cache (s : State) (e : Event) : (s.emit e).cache = s.cache := rfl
@[simp] theorem State.emit_l2HitPromotes (s : State) (e : Event) : (s.emit e).l2HitPromotes = s.l2HitPromotes := rfl
@[simp] theorem State.emit_undefFunc (s : State) (e : Event) : (s.emit e).undefFunc = s.undefFunc := rfl
@[simp] theorem State.emit_events (s : State) (e : Event) : (s.emit e).events = s.events ++ [e] := rfl

@[simp] theorem State.setReg_word (s : State) (r : RegId) (v : Word) (q : Addr) : (s.setReg r v).word q = s.word q := rfl
@[simp] theorem State.setReg_cfg (s : State) (r : RegId) (v : Word) : (s.setReg r v).cfg = s.cfg := rfl
@[simp] theorem State.setReg_pcPlusOne (s : State) (r : RegId) (v : Word) : (s.setReg r v).pcPlusOne = s.pcPlusOne := rfl
@[simp] theorem State.setPc_reg (s : State) (p : Addr) (q : RegId) : (s.setPc p).reg q = s.reg q := rfl
@[simp] theorem State.setPc_word (s : State) (p : Addr) (q : Addr) : (s.setPc p).word q = s.word q := rfl
@[simp] theorem State.setPc_cfg (s : State) (p : Addr) : (s.setPc p).cfg = s.cfg := rfl
@[simp] theorem State.setHalted_reg (s : State) (q : RegId) : (s.setHalted).reg q = s.reg q := rfl
@[simp] theorem State.setHalted_word (s : State) (q : Addr) : (s.setHalted).word q = s.word q := rfl
@[simp] theorem State.setHalted_cfg (s : State) : (s.setHalted).cfg = s.cfg := rfl
@[simp] theorem State.setHalted_pcPlusOne (s : State) : (s.setHalted).pcPlusOne = s.pcPlusOne := rfl
@[simp] theorem State.setMem_reg (s : State) (m : Memory) (q : RegId) : (s.setMem m).reg q = s.reg q := rfl
@[simp] theorem State.setMem_cfg (s : State) (m : Memory) : (s.setMem m).cfg = s.cfg := rfl
@[simp] theorem State.setMem_pcPlusOne (s : State) (m : Memory) : (s.setMem m).pcPlusOne = s.pcPlusOne := rfl
@[simp] theorem State.setCache_reg (s : State) (h : Hierarchy) (q : RegId) : (s.setCache h).reg q = s.reg q := rfl
@[simp] theorem State.setCache_word (s : State) (h : Hierarchy) (q : Addr) : (s.setCache h).word q = s.word q := rfl
@[simp] theorem State.setCache_pcPlusOne (s : State) (h : Hierarchy) : (s.setCache h).pcPlusOne = s.pcPlusOne := rfl
@[simp] theorem State.emit_reg (s : State) (e : Event) (q : RegId) : (s.emit e).reg q = s.reg q := rfl
@[simp] theorem State.emit_word (s : State) (e : Event) (q : Addr) : (s.emit e).word q = s.word q := rfl
@[simp] theorem State.emit_cfg (s : State) (e : Event) : (s.emit e).cfg = s.cfg := rfl
@[simp] theorem State.emit_pcPlusOne (s : State) (e : Event) : (s.emit e).pcPlusOne = s.pcPlusOne := rfl

@[simp] theorem State.setMem_word (s : State) (m : Memory) (q : Addr) : (s.setMem m).word q = memRead m q.toNat := rfl

/-! Registers: a read after a write (spec/10_state.md R31). -/

theorem regId_cases (r : RegId) :
    r = 0#3 ∨ r = 1#3 ∨ r = 2#3 ∨ r = 3#3 ∨ r = 4#3 ∨ r = 5#3 ∨ r = 6#3 ∨ r = 7#3 := by
  revert r; decide

theorem RegFile.get_set (f : RegFile) (r q : RegId) (v : Word) :
    (f.set r v).get q = if q = r ∧ r ≠ 0#3 then v else f.get q := by
  rcases regId_cases r with rfl | rfl | rfl | rfl | rfl | rfl | rfl | rfl <;>
  rcases regId_cases q with rfl | rfl | rfl | rfl | rfl | rfl | rfl | rfl <;> rfl

@[simp] theorem RegFile.get_zero (f : RegFile) : f.get 0#3 = 0#16 := rfl
@[simp] theorem RegFile.set_zero (f : RegFile) (v : Word) : f.set 0#3 v = f := rfl

/-- Two register files that read alike are equal. -/
theorem RegFile.ext_get (f g : RegFile) (h : ∀ r, f.get r = g.get r) : f = g := by
  have h1 := h 1#3; have h2 := h 2#3; have h3 := h 3#3; have h4 := h 4#3
  have h5 := h 5#3; have h6 := h 6#3; have h7 := h 7#3
  cases f; cases g; simp_all [RegFile.get]

theorem State.setReg_reg (s : State) (r q : RegId) (v : Word) :
    (s.setReg r v).reg q = if q = r ∧ r ≠ 0#3 then v else s.reg q := RegFile.get_set _ _ _ _

@[simp] theorem State.setReg_reg_ne (s : State) (r q : RegId) (v : Word) (h : q ≠ r) :
    (s.setReg r v).reg q = s.reg q := by simp [State.setReg_reg, h]

@[simp] theorem State.reg_zero (s : State) : s.reg 0#3 = 0#16 := rfl
@[simp] theorem State.setReg_zero (s : State) (v : Word) : s.setReg 0#3 v = s := rfl

/-! Addresses as words. -/

@[simp] theorem wordToAddr_addrToWord (a : Addr) : wordToAddr (addrToWord a) = a := by
  simp [wordToAddr, addrToWord]

@[simp] theorem addrToWord_inj (a b : Addr) : addrToWord a = addrToWord b ↔ a = b :=
  ⟨fun h => by simpa using congrArg wordToAddr h, fun h => h ▸ rfl⟩

theorem wordToAddr_add (x y : Word) : wordToAddr (x + y) = wordToAddr x + wordToAddr y := by
  simp [wordToAddr, BitVec.setWidth_add]

theorem addrToWord_toNat (a : Addr) : (addrToWord a).toNat = a.toNat := by
  simp only [addrToWord, BitVec.toNat_setWidth]; omega

theorem wordToAddr_toNat (w : Word) : (wordToAddr w).toNat = w.toNat % memSize := by
  simp [wordToAddr]

/-- The tentative next pc is never the instruction's own address (spec/40_step.md R156). -/
theorem State.pcPlusOne_ne (s : State) : s.pcPlusOne ≠ addrToWord s.pc := by
  intro h
  have : s.pcPlusOne.toNat = (addrToWord s.pc).toNat := by rw [h]
  simp only [State.pcPlusOne, BitVec.toNat_add, addrToWord_toNat] at this
  have := s.pc.isLt
  simp at *; omega

/-! The end of a step. -/

theorem State.finish_eq (s : State) (n : Word) :
    (n = addrToWord s.pc ∧ s.finish n = s.setHalted) ∨
    (n ≠ addrToWord s.pc ∧ s.finish n = s.setPc (wordToAddr n)) := by
  unfold State.finish; split <;> simp_all

/-- The end of an instruction that transfers no control: `pc` becomes `pc + 1` modulo `MEM_SIZE`, nothing else. -/
theorem State.advance_eq (s : State) : s.advance = s.setPc (s.pc + 1#13) := by
  have h : wordToAddr s.pcPlusOne = s.pc + 1#13 := by
    simp only [State.pcPlusOne, wordToAddr_add, wordToAddr_addrToWord]; rfl
  rw [State.advance, State.finish, if_neg s.pcPlusOne_ne, h]

/-- The end of a transfer to an address already reduced. -/
theorem State.finish_addr_pc (s : State) (a : Addr) : (s.finish (addrToWord a)).pc = a := by
  unfold State.finish; split <;> simp_all

theorem State.finish_addr_halted (s : State) (a : Addr) :
    (s.finish (addrToWord a)).halted = (s.halted || a == s.pc) := by
  unfold State.finish; split <;> simp_all

@[simp] theorem State.finish_regs (s : State) (n : Word) : (s.finish n).regs = s.regs := by unfold State.finish; split <;> rfl
@[simp] theorem State.finish_mem (s : State) (n : Word) : (s.finish n).mem = s.mem := by unfold State.finish; split <;> rfl
@[simp] theorem State.finish_cache (s : State) (n : Word) : (s.finish n).cache = s.cache := by unfold State.finish; split <;> rfl
@[simp] theorem State.finish_l2HitPromotes (s : State) (n : Word) : (s.finish n).l2HitPromotes = s.l2HitPromotes := by unfold State.finish; split <;> rfl
@[simp] theorem State.finish_undefFunc (s : State) (n : Word) : (s.finish n).undefFunc = s.undefFunc := by unfold State.finish; split <;> rfl
@[simp] theorem State.finish_events (s : State) (n : Word) : (s.finish n).events = s.events := by unfold State.finish; split <;> rfl
@[simp] theorem State.finish_reg (s : State) (n : Word) (q : RegId) : (s.finish n).reg q = s.reg q := by unfold State.finish; split <;> rfl
@[simp] theorem State.finish_word (s : State) (n : Word) (q : Addr) : (s.finish n).word q = s.word q := by unfold State.finish; split <;> rfl
@[simp] theorem State.finish_cfg (s : State) (n : Word) : (s.finish n).cfg = s.cfg := by unfold State.finish; split <;> rfl

end Sys2Proof.Machine
end

