-- ==== Sys2Proof/Laws/Cache.lean ====
section
/-! SUPPORT. The cache controller's operations: what each keeps of a level (row invariants and coherence), and the word a load
takes. Claims cite these lemmas and do not unfold the operations again. -/

namespace Sys2Proof.Machine

/-! Address decomposition (spec/20_memory.md R70). -/

theorem rowCount_pos (c : LevelConfig) (h : c.Legal) : 0 < c.rowCount := by
  obtain ⟨hs, ha, hb, hm⟩ := h
  have hp : 0 < c.assoc * c.blocksize := Nat.mul_pos ha hb
  refine Nat.div_pos ?_ hp
  exact Nat.le_of_dvd hs (Nat.dvd_of_mod_eq_zero hm)

theorem rowIndexOf_lt (c : LevelConfig) (h : c.Legal) (a : Addr) : rowIndexOf c a < c.rowCount :=
  Nat.mod_lt _ (rowCount_pos c h)

theorem offsetOf_lt (c : LevelConfig) (h : c.Legal) (a : Addr) : offsetOf c a < c.blocksize := Nat.mod_lt _ h.2.2.1

/-- Row and tag give the block back. -/
theorem tag_row_block (c : LevelConfig) (a : Addr) :
    tagOf c a * c.rowCount + rowIndexOf c a = blockIdOf c a := Nat.div_add_mod' _ _

/-- Block and offset give the address back. -/
theorem block_offset_addr (c : LevelConfig) (a : Addr) :
    blockIdOf c a * c.blocksize + offsetOf c a = a.toNat := Nat.div_add_mod' _ _

/-! Entries and rows that keep the invariants: `RowWf` and coherence, entry by entry. -/

/-- An entry of row `r`: as long as a block, over memory, and equal to main memory there. -/
def EntryGood (m : Memory) (c : LevelConfig) (r : Nat) (e : Entry) : Prop :=
  (e.data.length = c.blocksize ∧ (e.tag * c.rowCount + r) * c.blocksize < memSize) ∧
    ∀ i < c.blocksize, (e.tag * c.rowCount + r) * c.blocksize + i < memSize →
      e.word i = memRead m ((e.tag * c.rowCount + r) * c.blocksize + i)

/-- A row of good entries, no more than the associativity, with distinct tags. -/
def RowGood (m : Memory) (c : LevelConfig) (r : Nat) (row : Row) : Prop :=
  row.length ≤ c.assoc ∧ (row.map Entry.tag).Nodup ∧ ∀ e ∈ row, EntryGood m c r e

theorem level_good_iff (m : Memory) (l : Level) :
    (LevelWf l ∧ LevelCoherent m l) ↔
      l.cfg.Legal ∧ l.rows.length = l.cfg.rowCount ∧ ∀ r < l.rows.length, RowGood m l.cfg r (l.row r) := by
  constructor
  · rintro ⟨⟨hl, hn, hr⟩, hc⟩
    exact ⟨hl, hn, fun r h => ⟨(hr r h).1, (hr r h).2.1, fun e he => ⟨(hr r h).2.2 e he, hc r h e he⟩⟩⟩
  · rintro ⟨hl, hn, hr⟩
    exact ⟨⟨hl, hn, fun r h => ⟨(hr r h).1, (hr r h).2.1, fun e he => ((hr r h).2.2 e he).1⟩⟩,
      fun r h e he => ((hr r h).2.2 e he).2⟩

theorem row_setRow (l : Level) (r q : Nat) (row : Row) (h : r < l.rows.length) :
    (l.setRow r row).row q = if q = r then row else l.row q := by
  unfold Level.row Level.setRow
  by_cases hq : q = r
  · subst hq; simp [h]
  · simp [hq, Ne.symm hq]

/-- Replacing one row of a level by a good one, the others being good for the memory in question. -/
theorem level_setRow_good (m : Memory) (l : Level) (r : Nat) (row : Row) (hl : l.cfg.Legal)
    (hn : l.rows.length = l.cfg.rowCount) (hr : r < l.cfg.rowCount)
    (ho : ∀ q < l.rows.length, q ≠ r → RowGood m l.cfg q (l.row q)) (hg : RowGood m l.cfg r row) :
    LevelWf (l.setRow r row) ∧ LevelCoherent m (l.setRow r row) := by
  rw [level_good_iff]
  refine ⟨hl, by simpa [Level.setRow] using hn, fun q hq => ?_⟩
  have hq' : q < l.rows.length := by simpa [Level.setRow] using hq
  rw [row_setRow l r q row (by omega)]
  show RowGood m l.cfg q _
  by_cases h : q = r
  · subst h; simpa using hg
  · simpa [h] using ho q hq' h

/-- A row with the same entries in another order is as good. -/
theorem RowGood.perm {m : Memory} {c : LevelConfig} {r : Nat} {row row' : Row} (h : RowGood m c r row)
    (hp : row'.Perm row) : RowGood m c r row' :=
  ⟨hp.length_eq ▸ h.1, (hp.map _).nodup_iff.mpr h.2.1, fun e he => h.2.2 e (hp.mem_iff.mp he)⟩

theorem findEntry_some {row : Row} {t : Nat} {e : Entry} (h : findEntry row t = some e) : e ∈ row ∧ e.tag = t :=
  ⟨List.mem_of_find?_eq_some h, by simpa using List.find?_some h⟩

theorem findEntry_none {row : Row} {t : Nat} (h : findEntry row t = none) : t ∉ row.map Entry.tag := by
  intro hm
  obtain ⟨e, he, ht⟩ := List.mem_map.mp hm
  exact absurd ht (by simpa using List.find?_eq_none.mp h e he)

/-- Moving the entry of a tag to the head is a permutation of the row (R73). -/
theorem promote_perm {row : Row} {t : Nat} {e : Entry} (h : findEntry row t = some e) :
    (e :: withoutTag row t).Perm row := by
  induction row with
  | nil => simp [findEntry] at h
  | cons x row ih =>
    by_cases hx : x.tag = t
    · have : x = e := by simpa [findEntry, List.find?, hx] using h
      subst this; simp [withoutTag, List.eraseP, hx]
    · have hb : (x.tag == t) = false := by simpa using hx
      have hf : findEntry row t = some e := by simpa only [findEntry, List.find?, hb] using h
      have : withoutTag (x :: row) t = x :: withoutTag row t := by simp only [withoutTag, List.eraseP, hb, cond_false]
      rw [this]
      exact (List.Perm.swap x e _).trans ((ih hf).cons x)

theorem evictIfFull_sublist (n : Nat) (row : Row) : (evictIfFull n row).Sublist row := by
  unfold evictIfFull; split
  · exact List.dropLast_sublist row
  · exact List.Sublist.refl row

/-- After an eviction there is room for one entry. -/
theorem evictIfFull_length (n : Nat) (row : Row) (h : row.length ≤ n) (hn : 1 ≤ n) :
    (evictIfFull n row).length < n := by
  unfold evictIfFull; split
  · rw [List.length_dropLast]; omega
  · omega

theorem length_fillBlock (m : Memory) (c : LevelConfig) (id : Nat) : (fillBlock m c id).length = c.blocksize := by
  simp [fillBlock]

/-- A filled entry holds main memory's words (R72, R74). -/
theorem filledEntry_word (m : Memory) (c : LevelConfig) (a : Addr) (i : Nat) (hi : i < c.blocksize) :
    (filledEntry m c a).word i = memRead m (blockIdOf c a * c.blocksize + i) := by
  simp [filledEntry, Entry.word, fillBlock, hi]

theorem filledEntry_good (m : Memory) (c : LevelConfig) (a : Addr) :
    EntryGood m c (rowIndexOf c a) (filledEntry m c a) := by
  have hid : (filledEntry m c a).tag * c.rowCount + rowIndexOf c a = blockIdOf c a := tag_row_block c a
  refine ⟨⟨length_fillBlock _ _ _, ?_⟩, fun i hi _ => ?_⟩
  · rw [hid]
    have := block_offset_addr c a
    have := a.isLt
    simp only [memSize] at *; omega
  · rw [hid]; exact filledEntry_word m c a i hi

/-- Inserting a filled block into the row of an address that missed, after any eviction (R74). -/
theorem allocate_row_good (m : Memory) (c : LevelConfig) (a : Addr) (row : Row) (hc : c.Legal)
    (h : RowGood m c (rowIndexOf c a) row) (hmiss : findEntry row (tagOf c a) = none) :
    RowGood m c (rowIndexOf c a) (filledEntry m c a :: evictIfFull c.assoc row) := by
  have hs := evictIfFull_sublist c.assoc row
  refine ⟨evictIfFull_length _ _ h.1 hc.2.1, ?_, ?_⟩
  · rw [List.map_cons, List.nodup_cons]
    exact ⟨fun hm => findEntry_none hmiss ((hs.map _).subset hm), h.2.1.sublist (hs.map _)⟩
  · intro e he
    rcases List.mem_cons.mp he with rfl | he
    · exact filledEntry_good m c a
    · exact h.2.2 e (hs.subset he)

/-! The configuration of a level is not written (spec/10_state.md R44). -/

@[simp] theorem Level.setRow_cfg (l : Level) (r : Nat) (row : Row) : (l.setRow r row).cfg = l.cfg := rfl
@[simp] theorem Level.allocate_cfg (m : Memory) (l : Level) (a : Addr) : (l.allocate m a).cfg = l.cfg := rfl
@[simp] theorem Level.promote_cfg (l : Level) (r t : Nat) : (l.promote r t).cfg = l.cfg := by
  unfold Level.promote; split <;> rfl
@[simp] theorem Level.load_cfg (m : Memory) (l : Level) (a : Addr) : (l.load m a).1.cfg = l.cfg := by
  unfold Level.load; dsimp only; split <;> simp
@[simp] theorem Level.updateWord_cfg (l : Level) (r t o : Nat) (v : Word) : (l.updateWord r t o v).cfg = l.cfg := by
  simp [Level.updateWord]
@[simp] theorem Level.store_cfg (m : Memory) (l : Level) (a : Addr) (v : Word) : (l.store m a v).cfg = l.cfg := by
  unfold Level.store; dsimp only; split <;> simp
@[simp] theorem Level.afterUpperMiss_cfg (m : Memory) (p : Bool) (l : Level) (a : Addr) :
    (l.afterUpperMiss m p a).1.cfg = l.cfg := by
  unfold Level.afterUpperMiss; dsimp only; split <;> (try split) <;> simp

/-! Whole levels. -/

/-- The address hits the level: its tag is in its row (R71). -/
theorem probe_hit_iff (l : Level) (a : Addr) :
    (l.probe a).hit = true ↔ ∃ e, findEntry (l.row (rowIndexOf l.cfg a)) (tagOf l.cfg a) = some e := by
  simp [Level.probe, Option.isSome_iff_exists]

theorem probe_miss_iff (l : Level) (a : Addr) :
    ¬(l.probe a).hit = true ↔ findEntry (l.row (rowIndexOf l.cfg a)) (tagOf l.cfg a) = none := by
  simp [Level.probe]

/-- A fill on a miss keeps the level good (R74, R85, R87). -/
theorem Level.allocate_good (m : Memory) (l : Level) (a : Addr) (h : LevelWf l ∧ LevelCoherent m l)
    (hmiss : ¬(l.probe a).hit = true) : LevelWf (l.allocate m a) ∧ LevelCoherent m (l.allocate m a) := by
  obtain ⟨hl, hn, hr⟩ := (level_good_iff m l).mp h
  have hi := rowIndexOf_lt l.cfg hl a
  exact level_setRow_good m l _ _ hl hn hi (fun q hq _ => hr q hq)
    (allocate_row_good m l.cfg a _ hl (hr _ (by omega)) ((probe_miss_iff l a).mp hmiss))

/-- A promotion keeps the level good (R73). -/
theorem Level.promote_good (m : Memory) (l : Level) (r t : Nat) (hr : r < l.rows.length)
    (h : LevelWf l ∧ LevelCoherent m l) : LevelWf (l.promote r t) ∧ LevelCoherent m (l.promote r t) := by
  unfold Level.promote
  split
  · rename_i e he
    obtain ⟨hl, hn, hg⟩ := (level_good_iff m l).mp h
    exact level_setRow_good m l r _ hl hn (by omega) (fun q hq _ => hg q hq) ((hg r hr).perm (promote_perm he))
  · exact h

/-- A load on a level keeps it good (R76). -/
theorem Level.load_good (m : Memory) (l : Level) (a : Addr) (h : LevelWf l ∧ LevelCoherent m l) :
    LevelWf (l.load m a).1 ∧ LevelCoherent m (l.load m a).1 := by
  unfold Level.load
  dsimp only
  split
  · exact l.promote_good m _ _ (h.1.2.1 ▸ rowIndexOf_lt _ h.1.1 a) h
  · rename_i hm; exact l.allocate_good m a h hm

/-- L2 after an L1 miss stays good, whatever `l2HitPromotes` is (R85, R86). -/
theorem Level.afterUpperMiss_good (m : Memory) (p : Bool) (l : Level) (a : Addr) (h : LevelWf l ∧ LevelCoherent m l) :
    LevelWf (l.afterUpperMiss m p a).1 ∧ LevelCoherent m (l.afterUpperMiss m p a).1 := by
  unfold Level.afterUpperMiss
  dsimp only
  split
  · split
    · exact l.promote_good m _ _ (h.1.2.1 ▸ rowIndexOf_lt _ h.1.1 a) h
    · exact h
  · rename_i hm; exact l.allocate_good m a h hm

/-! The word a load takes (R76, R96). -/

/-- The row of an address after a fill: the filled block is its head. -/
theorem Level.allocate_row (m : Memory) (l : Level) (a : Addr) (hw : LevelWf l) :
    (l.allocate m a).row (rowIndexOf l.cfg a) =
      filledEntry m l.cfg a :: evictIfFull l.cfg.assoc (l.row (rowIndexOf l.cfg a)) := by
  have := rowIndexOf_lt l.cfg hw.1 a
  rw [Level.allocate, row_setRow _ _ _ _ (by have := hw.2.1; omega), if_pos rfl]

theorem Level.promote_row (l : Level) (r t : Nat) (e : Entry) (hr : r < l.rows.length)
    (h : findEntry (l.row r) t = some e) : (l.promote r t).row r = e :: withoutTag (l.row r) t := by
  rw [Level.promote, h]; dsimp only; rw [row_setRow _ _ _ _ hr, if_pos rfl]

theorem Level.allocate_headWord (m : Memory) (l : Level) (a : Addr) (hw : LevelWf l) :
    (l.allocate m a).headWord a = memRead m a.toNat := by
  unfold Level.headWord
  simp only [Level.allocate_cfg, Level.allocate_row m l a hw]
  rw [filledEntry_word m l.cfg a _ (offsetOf_lt l.cfg hw.1 a), block_offset_addr]

/-- The word taken by a load of a good level is main memory's, hit or miss. -/
theorem Level.load_headWord (m : Memory) (l : Level) (a : Addr) (h : LevelWf l ∧ LevelCoherent m l) :
    (l.load m a).1.headWord a = memRead m a.toNat := by
  unfold Level.load
  dsimp only
  split
  · rename_i hit
    obtain ⟨e, he⟩ := (probe_hit_iff l a).mp hit
    have hr : rowIndexOf l.cfg a < l.rows.length := h.1.2.1 ▸ rowIndexOf_lt _ h.1.1 a
    obtain ⟨hmem, htag⟩ := findEntry_some he
    have hco := h.2 _ hr e hmem (offsetOf l.cfg a) (offsetOf_lt l.cfg h.1.1 a)
    rw [htag, tag_row_block, block_offset_addr] at hco
    unfold Level.headWord
    simp only [Level.probe, Level.promote_cfg, l.promote_row _ _ e hr he]
    exact hco (by have := a.isLt; simp only [memSize]; omega)
  · exact l.allocate_headWord m a h.1

/-! Stores (R77, R88): memory is written first. -/

/-- An entry of another block is as good for the memory after the write. -/
theorem EntryGood.write_other {m : Memory} {c : LevelConfig} {r : Nat} {e : Entry} (h : EntryGood m c r e)
    (hm : m.wf = true) (a : Addr) (v : Word) (hne : e.tag * c.rowCount + r ≠ blockIdOf c a) :
    EntryGood (memWrite m a.toNat v) c r e := by
  refine ⟨h.1, fun i hi hlt => ?_⟩
  rw [h.2 i hi hlt, memRead_memWrite _ _ _ _ hm, if_neg]
  rw [Nat.mod_eq_of_lt hlt, Nat.mod_eq_of_lt (by have := a.isLt; simp only [memSize]; omega)]
  intro heq
  refine hne ?_
  rw [blockIdOf, ← heq, Nat.mul_comm _ c.blocksize, Nat.mul_add_div (by omega), Nat.div_eq_of_lt hi, Nat.add_zero]

/-- The entry of the stored block, with the stored word replaced, is good for the memory after the write. -/
theorem EntryGood.write_same {m : Memory} {c : LevelConfig} {e : Entry} (a : Addr)
    (h : EntryGood m c (rowIndexOf c a) e) (hm : m.wf = true) (v : Word) (ht : e.tag = tagOf c a) (hc : c.Legal) :
    EntryGood (memWrite m a.toNat v) c (rowIndexOf c a) (e.setWord (offsetOf c a) v) := by
  refine ⟨⟨by simpa [Entry.setWord] using h.1.1, h.1.2⟩, fun i hi hlt => ?_⟩
  have ho := offsetOf_lt c hc a
  have hid : (e.setWord (offsetOf c a) v).tag * c.rowCount + rowIndexOf c a = blockIdOf c a := by
    rw [← tag_row_block c a, ← ht]; rfl
  have hid' : e.tag * c.rowCount + rowIndexOf c a = blockIdOf c a := hid
  rw [hid] at hlt ⊢
  have hold := h.2 i hi (hid'.symm ▸ hlt)
  rw [hid'] at hold
  have haddr := block_offset_addr c a
  have ha := a.isLt
  rw [memRead_memWrite _ _ _ _ hm, Nat.mod_eq_of_lt hlt, Nat.mod_eq_of_lt (by simp only [memSize]; omega)]
  have hlen := h.1.1
  by_cases hio : i = offsetOf c a
  · subst hio
    rw [if_pos haddr]
    simp [Entry.setWord, Entry.word, hlen, ho]
  · rw [if_neg (by omega), ← hold]
    simp [Entry.setWord, Entry.word, List.getD, Ne.symm hio]

/-- Every row but the stored address's is as good for the memory after the write. -/
theorem RowGood.write_other_row {m : Memory} {c : LevelConfig} {q : Nat} {row : Row} (h : RowGood m c q row)
    (hm : m.wf = true) (a : Addr) (v : Word) (hq : q < c.rowCount) (hne : q ≠ rowIndexOf c a) :
    RowGood (memWrite m a.toNat v) c q row := by
  refine ⟨h.1, h.2.1, fun e he => (h.2.2 e he).write_other hm a v (fun heq => hne ?_)⟩
  rw [rowIndexOf, ← heq, Nat.mul_comm, Nat.mul_add_mod, Nat.mod_eq_of_lt hq]

/-- The stored address's row, with the word replaced in its entry. -/
theorem RowGood.write_row {m : Memory} {c : LevelConfig} {row : Row} (a : Addr)
    (h : RowGood m c (rowIndexOf c a) row) (hm : m.wf = true) (v : Word) (hc : c.Legal) :
    RowGood (memWrite m a.toNat v) c (rowIndexOf c a)
      (row.map (fun e => if e.tag == tagOf c a then e.setWord (offsetOf c a) v else e)) := by
  refine ⟨by simpa using h.1, ?_, fun e he => ?_⟩
  · have : (row.map (fun e => if e.tag == tagOf c a then e.setWord (offsetOf c a) v else e)).map Entry.tag =
        row.map Entry.tag := by
      rw [List.map_map]
      refine List.map_congr_left (fun e _ => ?_)
      simp only [Function.comp]; split <;> rfl
    rw [this]; exact h.2.1
  · obtain ⟨x, hx, rfl⟩ := List.mem_map.mp he
    have hg := h.2.2 x hx
    by_cases ht : x.tag = tagOf c a
    · simpa [ht] using hg.write_same a hm v ht hc
    · simp only [beq_iff_eq, ht, if_false]
      refine hg.write_other hm a v (fun heq => ht ?_)
      have hr := rowIndexOf_lt c hc a
      rw [tagOf, ← heq, Nat.add_comm, Nat.add_mul_div_right _ _ (by omega), Nat.div_eq_of_lt hr, Nat.zero_add]

/-- A store on a level, after the memory write, keeps the level's row invariants and makes it coherent with the new memory. -/
theorem Level.store_good (m : Memory) (l : Level) (a : Addr) (v : Word) (hm : m.wf = true)
    (h : LevelWf l ∧ LevelCoherent m l) :
    LevelWf (l.store (memWrite m a.toNat v) a v) ∧
      LevelCoherent (memWrite m a.toNat v) (l.store (memWrite m a.toNat v) a v) := by
  obtain ⟨hl, hn, hg⟩ := (level_good_iff m l).mp h
  have hi := rowIndexOf_lt l.cfg hl a
  have others : ∀ q < l.rows.length, q ≠ rowIndexOf l.cfg a →
      RowGood (memWrite m a.toNat v) l.cfg q (l.row q) :=
    fun q hq hne => (hg q hq).write_other_row hm a v (by omega) hne
  unfold Level.store
  dsimp only
  split
  · have hset := level_setRow_good _ l (rowIndexOf l.cfg a) _ hl hn hi others ((hg _ (by omega)).write_row a hm v hl)
    exact Level.promote_good _ _ _ _ (by simpa [Level.setRow, Level.probe] using (by omega)) hset
  · rename_i hmiss
    have hnone := (probe_miss_iff l a).mp hmiss
    refine level_setRow_good _ l _ _ hl hn hi others (allocate_row_good _ l.cfg a _ hl ?_ hnone)
    refine ⟨(hg _ (by omega)).1, (hg _ (by omega)).2.1, fun e he => ((hg _ (by omega)).2.2 e he).write_other hm a v ?_⟩
    intro heq
    refine findEntry_none hnone (List.mem_map.mpr ⟨e, he, ?_⟩)
    rw [tagOf, ← heq, Nat.add_comm, Nat.add_mul_div_right _ _ (by omega), Nat.div_eq_of_lt hi, Nat.zero_add]

end Sys2Proof.Machine
end

