-- ==== Sys2Proof/Laws/Encoding.lean ====
section
/-! SUPPORT. The encoder's words field by field. -/

namespace Sys2Proof

theorem fields_registerForm (f : Func) (d a b : RegId) :
    opcodeField (encodeRegisterForm f d a b) = 0#3 ∧ regAField (encodeRegisterForm f d a b) = a ∧
    regBField (encodeRegisterForm f d a b) = b ∧ regDstField (encodeRegisterForm f d a b) = d ∧
    funcField (encodeRegisterForm f d a b) = f := by
  refine ⟨?_, ?_, ?_, ?_, ?_⟩ <;> ext i hi <;>
    simp only [encodeRegisterForm, opcodeField, regAField, regBField, regDstField, funcField, BitVec.getElem_extractLsb',
      BitVec.getLsbD_append] <;>
    (try rw [← BitVec.getLsbD_eq_getElem hi]) <;> interval_cases i <;> simp

theorem fields_immediateForm (op : Opcode) (t s : RegId) (imm : Imm7) :
    opcodeField (encodeImmediateForm op t s imm) = op ∧ regAField (encodeImmediateForm op t s imm) = s ∧
    regBField (encodeImmediateForm op t s imm) = t ∧ imm7Field (encodeImmediateForm op t s imm) = imm := by
  refine ⟨?_, ?_, ?_, ?_⟩ <;> ext i hi <;>
    simp only [encodeImmediateForm, opcodeField, regAField, regBField, imm7Field, BitVec.getElem_extractLsb',
      BitVec.getLsbD_append] <;>
    (try rw [← BitVec.getLsbD_eq_getElem hi]) <;> interval_cases i <;> simp

theorem fields_jumpForm (op : Opcode) (target : Addr13) :
    opcodeField (encodeJumpForm op target) = op ∧ addr13Field (encodeJumpForm op target) = target := by
  refine ⟨?_, ?_⟩ <;> ext i hi <;>
    simp only [encodeJumpForm, opcodeField, addr13Field, BitVec.getElem_extractLsb', BitVec.getLsbD_append] <;>
    (try rw [← BitVec.getLsbD_eq_getElem hi]) <;> interval_cases i <;> simp

end Sys2Proof
end

