-- ==== Sys2Proof/Laws/PerInstr.lean ====
section
/-! SUPPORT. Per-instruction family `RowMatch`: the word of an instruction is of the instruction's own row of the opcode table
(spec/30_encoding.md R130, R132). -/

namespace Sys2Proof

theorem registerForm_masked (f : Func) (d a b : RegId) : encodeRegisterForm f d a b &&& 0xE00F#16 = f.setWidth 16 := by
  refine BitVec.eq_of_getLsbD_eq (fun i hi => ?_)
  simp only [encodeRegisterForm, BitVec.getLsbD_and, BitVec.getLsbD_append, BitVec.getLsbD_setWidth]
  interval_cases i <;> simp

theorem immediateForm_masked (op : Opcode) (t s : RegId) (imm : Imm7) :
    encodeImmediateForm op t s imm &&& 0xE000#16 = op.setWidth 16 <<< 13 := by
  refine BitVec.eq_of_getLsbD_eq (fun i hi => ?_)
  simp only [encodeImmediateForm, BitVec.getLsbD_and, BitVec.getLsbD_append, BitVec.getLsbD_shiftLeft, BitVec.getLsbD_setWidth]
  interval_cases i <;> simp

theorem jumpForm_masked (op : Opcode) (target : Addr13) :
    encodeJumpForm op target &&& 0xE000#16 = op.setWidth 16 <<< 13 := by
  refine BitVec.eq_of_getLsbD_eq (fun i hi => ?_)
  simp only [encodeJumpForm, BitVec.getLsbD_and, BitVec.getLsbD_append, BitVec.getLsbD_shiftLeft, BitVec.getLsbD_setWidth]
  interval_cases i <;> simp

/-- jr's word is a register-form word of func 8 whose ignored bits stand where regB and regDst would. -/
theorem jr_registerForm (a : RegId) (ig : BitVec 6) :
    encode (.jr a ig) = encodeRegisterForm 8#4 (ig.extractLsb' 0 3) a (ig.extractLsb' 3 3) := by
  refine BitVec.eq_of_getLsbD_eq (fun i hi => ?_)
  simp only [encode, encodeRegisterForm, BitVec.getLsbD_append, BitVec.getLsbD_extractLsb']
  interval_cases i <;> simp

namespace Laws.RowMatch

/-- The instruction's word is of its own row of the opcode table. -/
def Statement (i : Instr) : Prop := rowMatches (encode i) (opcodeRow i) = true

theorem add (d a b : RegId) : Statement (.add d a b) := by simp [Statement, rowMatches, opcodeRow, encode, registerForm_masked]
theorem sub (d a b : RegId) : Statement (.sub d a b) := by simp [Statement, rowMatches, opcodeRow, encode, registerForm_masked]
theorem or (d a b : RegId) : Statement (.or d a b) := by simp [Statement, rowMatches, opcodeRow, encode, registerForm_masked]
theorem and (d a b : RegId) : Statement (.and d a b) := by simp [Statement, rowMatches, opcodeRow, encode, registerForm_masked]
theorem slt (d a b : RegId) : Statement (.slt d a b) := by simp [Statement, rowMatches, opcodeRow, encode, registerForm_masked]
theorem jr (a : RegId) (ignored : BitVec 6) : Statement (.jr a ignored) := by
  rw [Statement, jr_registerForm]; simp [rowMatches, opcodeRow, registerForm_masked]
theorem addi (t s : RegId) (imm : Imm7) : Statement (.addi t s imm) := by
  simp [Statement, rowMatches, opcodeRow, encode, immediateForm_masked]
theorem j (target : Addr13) : Statement (.j target) := by simp [Statement, rowMatches, opcodeRow, encode, jumpForm_masked]
theorem jal (target : Addr13) : Statement (.jal target) := by simp [Statement, rowMatches, opcodeRow, encode, jumpForm_masked]
theorem lw (t s : RegId) (imm : Imm7) : Statement (.lw t s imm) := by
  simp [Statement, rowMatches, opcodeRow, encode, immediateForm_masked]
theorem sw (t s : RegId) (imm : Imm7) : Statement (.sw t s imm) := by
  simp [Statement, rowMatches, opcodeRow, encode, immediateForm_masked]
theorem jeq (a b : RegId) (imm : Imm7) : Statement (.jeq a b imm) := by
  simp [Statement, rowMatches, opcodeRow, encode, immediateForm_masked]
theorem slti (t s : RegId) (imm : Imm7) : Statement (.slti t s imm) := by
  simp [Statement, rowMatches, opcodeRow, encode, immediateForm_masked]
theorem undef5 (d a b : RegId) : Statement (.undef5 d a b) := by
  simp [Statement, rowMatches, opcodeRow, encode, registerForm_masked]
theorem undef6 (d a b : RegId) : Statement (.undef6 d a b) := by
  simp [Statement, rowMatches, opcodeRow, encode, registerForm_masked]
theorem undef7 (d a b : RegId) : Statement (.undef7 d a b) := by
  simp [Statement, rowMatches, opcodeRow, encode, registerForm_masked]
theorem undef9 (d a b : RegId) : Statement (.undef9 d a b) := by
  simp [Statement, rowMatches, opcodeRow, encode, registerForm_masked]
theorem undef10 (d a b : RegId) : Statement (.undef10 d a b) := by
  simp [Statement, rowMatches, opcodeRow, encode, registerForm_masked]
theorem undef11 (d a b : RegId) : Statement (.undef11 d a b) := by
  simp [Statement, rowMatches, opcodeRow, encode, registerForm_masked]
theorem undef12 (d a b : RegId) : Statement (.undef12 d a b) := by
  simp [Statement, rowMatches, opcodeRow, encode, registerForm_masked]
theorem undef13 (d a b : RegId) : Statement (.undef13 d a b) := by
  simp [Statement, rowMatches, opcodeRow, encode, registerForm_masked]
theorem undef14 (d a b : RegId) : Statement (.undef14 d a b) := by
  simp [Statement, rowMatches, opcodeRow, encode, registerForm_masked]
theorem undef15 (d a b : RegId) : Statement (.undef15 d a b) := by
  simp [Statement, rowMatches, opcodeRow, encode, registerForm_masked]

end Laws.RowMatch

end Sys2Proof
end

