-- ==== Sys2Proof/Laws/Recency.lean ====
section
/-! SUPPORT. Recency of the rows (spec/20_memory.md R73 to R77): one access of a level, a hit that promotes or a miss that
allocates, keeps every row the list of the tags most recently accessed. -/

namespace Sys2Proof.Machine

/-! Lists of tags. -/

theorem dedup_concat (xs : List Nat) (t : Nat) : (xs ++ [t]).dedup = xs.dedup.erase t ++ [t] := by
  induction xs with
  | nil => simp
  | cons x xs ih =>
    rw [List.cons_append]
    by_cases hx : x ∈ xs
    · rw [List.dedup_cons_of_mem (by simp [hx]), List.dedup_cons_of_mem hx, ih]
    · by_cases ht : x = t
      · subst ht
        rw [List.dedup_cons_of_mem (by simp), ih, List.dedup_cons_of_notMem hx, List.erase_cons_head,
          List.erase_of_not_mem (by simpa using hx)]
      · rw [List.dedup_cons_of_notMem (by simp [hx, ht]), ih, List.dedup_cons_of_notMem hx,
          List.erase_cons_tail (by simpa using ht)]; rfl

theorem erase_take_of_mem (T : List Nat) (t n : Nat) (h : t ∈ T.take (n + 1)) :
    (T.take (n + 1)).erase t = (T.erase t).take n := by
  induction T generalizing n with
  | nil => simp at h
  | cons x T ih =>
    by_cases hx : x = t
    · subst hx; simp
    · rw [List.take_succ_cons, List.erase_cons_tail (by simpa using hx), List.erase_cons_tail (by simpa using hx)]
      rw [List.take_succ_cons, List.mem_cons] at h
      have h := h.resolve_left (Ne.symm hx)
      cases n with
      | zero => simp at h
      | succ n => rw [ih n h, List.take_succ_cons]

theorem take_erase_of_notMem (T : List Nat) (t n : Nat) (h : t ∉ T.take (n + 1)) : (T.erase t).take n = T.take n := by
  induction T generalizing n with
  | nil => simp
  | cons x T ih =>
    rw [List.take_succ_cons, List.mem_cons, not_or] at h
    rw [List.erase_cons_tail (by simpa using Ne.symm h.1)]
    cases n with
    | zero => simp
    | succ n => rw [List.take_succ_cons, List.take_succ_cons, ih n h.2]

/-- Removing the entry of a tag removes the tag. -/
theorem tags_withoutTag (row : Row) (t : Nat) : (withoutTag row t).map Entry.tag = (row.map Entry.tag).erase t := by
  induction row with
  | nil => rfl
  | cons e row ih =>
    by_cases h : e.tag = t
    · simp [withoutTag, h]
    · have hb : (e.tag == t) = false := by simpa using h
      rw [List.map_cons, List.erase_cons_tail (by simpa using h), ← ih]
      simp only [withoutTag, List.eraseP, hb, cond_false, List.map_cons]

/-- Evicting from a row that holds the first `n + 1` of a list of tags, full or not, leaves the first `n`. -/
theorem tags_evictIfFull (row : Row) (T : List Nat) (n : Nat) (h : row.map Entry.tag = T.take (n + 1)) :
    (evictIfFull (n + 1) row).map Entry.tag = T.take n := by
  have hlen := congrArg List.length h
  rw [List.length_map, List.length_take] at hlen
  unfold evictIfFull
  split
  · rw [List.map_dropLast, h, List.dropLast_eq_take, List.length_take, List.take_take]
    congr 1; omega
  · rw [h, List.take_of_length_le (by omega), List.take_of_length_le (by omega)]

/-! The most recent tags after one more access. -/

theorem recentTags_other (c : LevelConfig) (as : List Addr) (a : Addr) (r : Nat) (h : r ≠ rowIndexOf c a) :
    recentTags c (as ++ [a]) r = recentTags c as r := by
  have h1 : (rowIndexOf c a == r) = false := by simpa using Ne.symm h
  simp [recentTags, List.filter_append, h1]

/-- The tag accessed last comes first, the others keep their order. -/
theorem recentTags_same (c : LevelConfig) (as : List Addr) (a : Addr) (n : Nat) (hn : c.assoc = n + 1) :
    recentTags c (as ++ [a]) (rowIndexOf c a) =
      tagOf c a :: ((((as.filter (fun x => rowIndexOf c x == rowIndexOf c a)).map (tagOf c)).dedup.reverse).erase
        (tagOf c a)).take n := by
  have hnd := List.nodup_dedup ((as.filter (fun x => rowIndexOf c x == rowIndexOf c a)).map (tagOf c))
  simp only [recentTags, List.filter_append, beq_self_eq_true, List.filter_cons_of_pos, List.filter_nil, List.map_append,
    List.map_cons, List.map_nil, hn]
  rw [dedup_concat, List.reverse_append, List.reverse_singleton, List.singleton_append, List.take_succ_cons,
    hnd.erase_eq_filter, (List.nodup_reverse.mpr hnd).erase_eq_filter, List.filter_reverse]

/-! One access of a level. -/

theorem LevelRecent.promote {l : Level} {as : List Addr} (h : LevelRecent l as) (hc : l.cfg.Legal) (a : Addr)
    (hr : rowIndexOf l.cfg a < l.rows.length) (hit : (l.probe a).hit = true) :
    LevelRecent (l.promote (rowIndexOf l.cfg a) (tagOf l.cfg a)) (as ++ [a]) := by
  obtain ⟨e, he⟩ := (probe_hit_iff l a).mp hit
  obtain ⟨n, hn⟩ : ∃ n, l.cfg.assoc = n + 1 := ⟨l.cfg.assoc - 1, by have := hc.2.1; omega⟩
  intro q hq
  rw [Level.promote_cfg]
  by_cases hqr : q = rowIndexOf l.cfg a
  · subst hqr
    have hrow := h _ hr
    have hmem : tagOf l.cfg a ∈ (l.row (rowIndexOf l.cfg a)).map Entry.tag :=
      (findEntry_some he).2 ▸ List.mem_map_of_mem (findEntry_some he).1
    rw [l.promote_row _ _ e hr he, List.map_cons, (findEntry_some he).2, tags_withoutTag, recentTags_same _ _ _ n hn]
    rw [recentTags, hn] at hrow
    rw [hrow] at hmem ⊢
    rw [erase_take_of_mem _ _ _ hmem]
  · rw [recentTags_other _ _ _ _ hqr]
    have hq' : q < l.rows.length := by
      unfold Level.promote at hq; rw [he] at hq; simpa [Level.setRow] using hq
    rw [Level.promote, he]; dsimp only
    rw [row_setRow _ _ _ _ hr, if_neg hqr]; exact h q hq'

theorem LevelRecent.allocate {l : Level} {as : List Addr} (h : LevelRecent l as) (hw : LevelWf l) (m : Memory) (a : Addr)
    (hmiss : ¬(l.probe a).hit = true) : LevelRecent (l.allocate m a) (as ++ [a]) := by
  have hr : rowIndexOf l.cfg a < l.rows.length := hw.2.1 ▸ rowIndexOf_lt _ hw.1 a
  obtain ⟨n, hn⟩ : ∃ n, l.cfg.assoc = n + 1 := ⟨l.cfg.assoc - 1, by have := hw.1.2.1; omega⟩
  intro q hq
  rw [Level.allocate_cfg]
  by_cases hqr : q = rowIndexOf l.cfg a
  · subst hqr
    have hrow := h _ hr
    have hnot := findEntry_none ((probe_miss_iff l a).mp hmiss)
    rw [recentTags, hn] at hrow
    rw [hrow] at hnot
    rw [l.allocate_row m a hw, List.map_cons, recentTags_same _ _ _ n hn, take_erase_of_notMem _ _ _ hnot, hn,
      tags_evictIfFull _ _ _ hrow]
    rfl
  · rw [recentTags_other _ _ _ _ hqr]
    have hq' : q < l.rows.length := by simpa [Level.allocate, Level.setRow] using hq
    rw [Level.allocate, row_setRow _ _ _ _ hr, if_neg hqr]; exact h q hq'

/-- A load of a level is an access of its address, a hit or a miss. -/
theorem LevelRecent.load {l : Level} {as : List Addr} (h : LevelRecent l as) (hw : LevelWf l) (m : Memory) (a : Addr) :
    LevelRecent (l.load m a).1 (as ++ [a]) := by
  unfold Level.load
  dsimp only
  split
  · rename_i hit; exact h.promote hw.1 a (hw.2.1 ▸ rowIndexOf_lt _ hw.1 a) hit
  · rename_i hmiss; exact h.allocate hw m a hmiss

/-- A store of a level is an access of its address, a hit or a miss. -/
theorem LevelRecent.store {l : Level} {as : List Addr} (h : LevelRecent l as) (hw : LevelWf l) (m : Memory) (a : Addr)
    (v : Word) : LevelRecent (l.store m a v) (as ++ [a]) := by
  have hr : rowIndexOf l.cfg a < l.rows.length := hw.2.1 ▸ rowIndexOf_lt _ hw.1 a
  unfold Level.store
  dsimp only
  split
  · rename_i hit
    obtain ⟨e, he⟩ := (probe_hit_iff l a).mp hit
    let f : Entry → Entry := fun e => if e.tag == tagOf l.cfg a then e.setWord (offsetOf l.cfg a) v else e
    have htag : ∀ e, (f e).tag = e.tag := fun e => by simp only [f]; split <;> rfl
    let l' := l.setRow (rowIndexOf l.cfg a) ((l.row (rowIndexOf l.cfg a)).map f)
    have hrow : ∀ q, (l'.row q).map Entry.tag = (l.row q).map Entry.tag := by
      intro q
      simp only [l']
      rw [row_setRow _ _ _ _ hr]
      split
      · rename_i hq; subst hq; rw [List.map_map]; exact List.map_congr_left (fun e _ => htag e)
      · rfl
    have h' : LevelRecent l' as := fun q hq => by
      rw [hrow]; exact h q (by simpa [l', Level.setRow] using hq)
    have hit' : (l'.probe a).hit = true := by
      have hm : tagOf l.cfg a ∈ (l'.row (rowIndexOf l.cfg a)).map Entry.tag := by
        rw [hrow]; exact (findEntry_some he).2 ▸ List.mem_map_of_mem (findEntry_some he).1
      obtain ⟨x, hx, hxt⟩ := List.mem_map.mp hm
      refine Option.isSome_iff_exists.mpr ?_
      rw [← Option.isSome_iff_exists]
      exact List.find?_isSome.mpr ⟨x, hx, by simpa [l'] using hxt⟩
    exact h'.promote hw.1 a (by simpa [l', Level.setRow] using hr) hit'
  · rename_i hmiss; exact h.allocate hw m a hmiss

/-- L2's part in a load that missed L1 is an access of L2, but for a hit that does not promote, which leaves L2 as it is. -/
theorem LevelRecent.afterUpperMiss {l : Level} {as : List Addr} (h : LevelRecent l as) (hw : LevelWf l) (m : Memory)
    (promotes : Bool) (a : Addr) :
    LevelRecent (l.afterUpperMiss m promotes a).1
      (if promotes || (l.afterUpperMiss m promotes a).2 != .HIT then as ++ [a] else as) := by
  unfold Level.afterUpperMiss
  dsimp only
  split
  · rename_i hit
    cases promotes
    · exact h
    · exact h.promote hw.1 a (hw.2.1 ▸ rowIndexOf_lt _ hw.1 a) hit
  · rename_i hmiss
    have hb : (Status.MISS != Status.HIT) = true := rfl
    simp only [hb, Bool.or_true, if_true]
    exact h.allocate hw m a hmiss

end Sys2Proof.Machine
end

