-- ==== Sys2Proof/Laws/Requests.lean ====
section
/-! SUPPORT. The two requests of the cache controller, meaning by meaning what `exec` answers, and what a step can do. -/

namespace Sys2Proof.Machine

/-! `Load` changes the cache rows and the event stream, nothing else (spec/20_memory.md R80 to R87). -/

theorem State.load_changes (s : State) (a : Addr) :
    ∃ h es, (s.load a).2 = { s with cache := h, events := s.events ++ es } ∧
      h.levels.map Level.cfg = s.cache.levels.map Level.cfg := by
  unfold State.load
  split
  · exact ⟨s.cache, [], by simp, rfl⟩
  · rename_i l1 hc
    exact ⟨_, [_], rfl, by simp [hc, Hierarchy.levels]⟩
  · rename_i l1 l2 hc
    unfold loadTwoLevel
    split
    · exact ⟨_, [_], rfl, by simp [hc, Hierarchy.levels]⟩
    · exact ⟨_, [_, _], by simp only [State.emit, State.setCache, List.append_assoc, List.singleton_append]; rfl, by simp [hc, Hierarchy.levels]⟩

@[simp] theorem State.load_regs (s : State) (a : Addr) : (s.load a).2.regs = s.regs := by
  obtain ⟨h, es, e, _⟩ := s.load_changes a; rw [e]
@[simp] theorem State.load_pc (s : State) (a : Addr) : (s.load a).2.pc = s.pc := by
  obtain ⟨h, es, e, _⟩ := s.load_changes a; rw [e]
@[simp] theorem State.load_mem (s : State) (a : Addr) : (s.load a).2.mem = s.mem := by
  obtain ⟨h, es, e, _⟩ := s.load_changes a; rw [e]
@[simp] theorem State.load_halted (s : State) (a : Addr) : (s.load a).2.halted = s.halted := by
  obtain ⟨h, es, e, _⟩ := s.load_changes a; rw [e]
@[simp] theorem State.load_undefFunc (s : State) (a : Addr) : (s.load a).2.undefFunc = s.undefFunc := by
  obtain ⟨h, es, e, _⟩ := s.load_changes a; rw [e]
@[simp] theorem State.load_l2HitPromotes (s : State) (a : Addr) : (s.load a).2.l2HitPromotes = s.l2HitPromotes := by
  obtain ⟨h, es, e, _⟩ := s.load_changes a; rw [e]
@[simp] theorem State.load_reg (s : State) (a : Addr) (r : RegId) : (s.load a).2.reg r = s.reg r := by
  simp [State.reg]
@[simp] theorem State.load_word (s : State) (a b : Addr) : (s.load a).2.word b = s.word b := by
  simp [State.word]
@[simp] theorem State.load_cfg (s : State) (a : Addr) : (s.load a).2.cfg = s.cfg := by
  obtain ⟨h, es, e, hc⟩ := s.load_changes a; rw [e]; simp [State.cfg, hc]

/-! `Store` changes main memory, the cache rows and the event stream, nothing else (spec/20_memory.md R88). -/

theorem State.store_changes (s : State) (a : Addr) (v : Word) :
    ∃ h es, s.store a v = { s with mem := memWrite s.mem a.toNat v, cache := h, events := s.events ++ es } ∧
      h.levels.map Level.cfg = s.cache.levels.map Level.cfg := by
  unfold State.store State.storeLevels
  split
  · exact ⟨s.cache, [], by simp [State.setMem], rfl⟩
  · rename_i l1 hc
    have hc : s.cache = .oneLevel l1 := hc
    exact ⟨_, [_], rfl, by simp [hc, Hierarchy.levels]⟩
  · rename_i l1 l2 hc
    have hc : s.cache = .twoLevel l1 l2 := hc
    exact ⟨_, [_, _], by simp only [State.emit, State.setCache, List.append_assoc, List.singleton_append]; rfl, by simp [hc, Hierarchy.levels]⟩

@[simp] theorem State.store_regs (s : State) (a : Addr) (v : Word) : (s.store a v).regs = s.regs := by
  obtain ⟨h, es, e, _⟩ := s.store_changes a v; rw [e]
@[simp] theorem State.store_pc (s : State) (a : Addr) (v : Word) : (s.store a v).pc = s.pc := by
  obtain ⟨h, es, e, _⟩ := s.store_changes a v; rw [e]
@[simp] theorem State.store_mem (s : State) (a : Addr) (v : Word) :
    (s.store a v).mem = memWrite s.mem a.toNat v := by
  obtain ⟨h, es, e, _⟩ := s.store_changes a v; rw [e]
@[simp] theorem State.store_halted (s : State) (a : Addr) (v : Word) : (s.store a v).halted = s.halted := by
  obtain ⟨h, es, e, _⟩ := s.store_changes a v; rw [e]
@[simp] theorem State.store_undefFunc (s : State) (a : Addr) (v : Word) : (s.store a v).undefFunc = s.undefFunc := by
  obtain ⟨h, es, e, _⟩ := s.store_changes a v; rw [e]
@[simp] theorem State.store_l2HitPromotes (s : State) (a : Addr) (v : Word) :
    (s.store a v).l2HitPromotes = s.l2HitPromotes := by
  obtain ⟨h, es, e, _⟩ := s.store_changes a v; rw [e]
@[simp] theorem State.store_reg (s : State) (a : Addr) (v : Word) (r : RegId) : (s.store a v).reg r = s.reg r := by
  simp [State.reg]
@[simp] theorem State.store_cfg (s : State) (a : Addr) (v : Word) : (s.store a v).cfg = s.cfg := by
  obtain ⟨h, es, e, hc⟩ := s.store_changes a v; rw [e]; simp [State.cfg, hc]

/-- Main memory after a store: the stored word at the address, the old words elsewhere. -/
theorem State.store_word (s : State) (a b : Addr) (v : Word) (hw : s.mem.wf = true) :
    (s.store a v).word b = if b = a then v else s.word b := by
  have ha := a.isLt
  have hb := b.isLt
  simp only [State.word, State.store_mem, memRead_memWrite _ _ _ _ hw]
  rw [Nat.mod_eq_of_lt (by simp only [memSize]; omega), Nat.mod_eq_of_lt (by simp only [memSize]; omega)]
  simp only [BitVec.toNat_inj]

/-! What each meaning answers. -/

theorem exec_add (d a b : RegId) (s : State) :
    exec (.add d a b) s = .next ((s.setReg d (s.reg a + s.reg b)).setPc (s.pc + 1#13)) := by
  simp [exec, execAdd, compute, State.advance_eq]
theorem exec_sub (d a b : RegId) (s : State) :
    exec (.sub d a b) s = .next ((s.setReg d (s.reg a - s.reg b)).setPc (s.pc + 1#13)) := by
  simp [exec, execSub, compute, State.advance_eq]
theorem exec_or (d a b : RegId) (s : State) :
    exec (.or d a b) s = .next ((s.setReg d (s.reg a ||| s.reg b)).setPc (s.pc + 1#13)) := by
  simp [exec, execOr, compute, State.advance_eq]
theorem exec_and (d a b : RegId) (s : State) :
    exec (.and d a b) s = .next ((s.setReg d (s.reg a &&& s.reg b)).setPc (s.pc + 1#13)) := by
  simp [exec, execAnd, compute, State.advance_eq]
theorem exec_slt (d a b : RegId) (s : State) :
    exec (.slt d a b) s = .next ((s.setReg d (signedLess (s.reg a) (s.reg b))).setPc (s.pc + 1#13)) := by
  simp [exec, execSlt, compute, State.advance_eq]
theorem exec_jr (a : RegId) (ig : BitVec 6) (s : State) :
    exec (.jr a ig) s = .next (s.finish (addrToWord (wordToAddr (s.reg a)))) := rfl
theorem exec_addi (t r : RegId) (imm : Imm7) (s : State) :
    exec (.addi t r imm) s = .next ((s.setReg t (s.reg r + sext16 imm)).setPc (s.pc + 1#13)) := by
  simp [exec, execAddi, computeImm, State.advance_eq]
theorem exec_slti (t r : RegId) (imm : Imm7) (s : State) :
    exec (.slti t r imm) s = .next ((s.setReg t (signedLess (s.reg r) (sext16 imm))).setPc (s.pc + 1#13)) := by
  simp [exec, execSlti, computeImm, State.advance_eq]
theorem exec_lw (t r : RegId) (imm : Imm7) (s : State) :
    exec (.lw t r imm) s =
      .next (((s.load (effectiveAddr s r imm)).2.setReg t (s.load (effectiveAddr s r imm)).1).setPc (s.pc + 1#13)) := by
  simp [exec, execLw, State.advance_eq]
theorem exec_sw (t r : RegId) (imm : Imm7) (s : State) :
    exec (.sw t r imm) s = .next ((s.store (effectiveAddr s r imm) (s.reg t)).setPc (s.pc + 1#13)) := by
  simp [exec, execSw, State.advance_eq]
theorem exec_jeq (a b : RegId) (imm : Imm7) (s : State) :
    exec (.jeq a b imm) s = .next (s.finish (if s.reg a = s.reg b then relativeTarget s imm else s.pcPlusOne)) := rfl
theorem exec_j (target : Addr13) (s : State) : exec (.j target) s = .next (s.finish (addrToWord target)) := rfl
theorem exec_jal (target : Addr13) (s : State) :
    exec (.jal target) s = .next ((s.setReg 7#3 s.pcPlusOne).finish (addrToWord target)) := rfl

/-- The ten undefined words answer alike (spec/41_register_form.md R177). -/
theorem exec_undef (i : Instr) (s : State) (h : i.kind = .UNDEF) : exec i s = undefinedFunc s := by
  cases i <;> first | rfl | (simp [Instr.kind] at h)

theorem undefinedFunc_nop (s : State) (h : s.undefFunc = .nop) : undefinedFunc s = .next (s.setPc (s.pc + 1#13)) := by
  simp [undefinedFunc, h, State.advance_eq]

theorem undefinedFunc_refuse (s : State) (h : s.undefFunc = .refuse) :
    undefinedFunc s = .refused .undefinedFunction := by
  simp [undefinedFunc, h]

/-- The halt test of a transfer to `target`, on the unreduced value, halts exactly when the reduced target is the
instruction's own address, for every target of this machine (spec/40_step.md R156). -/
theorem relativeTarget_addr (s : State) (imm : Imm7) :
    wordToAddr (relativeTarget s imm) = s.pc + 1#13 + wordToAddr (sext16 imm) := by
  rw [relativeTarget, wordToAddr_add, State.pcPlusOne, wordToAddr_add, wordToAddr_addrToWord]; rfl

/-- What a step can do: nothing on a halted machine, and otherwise what the instruction at the program counter does. -/
theorem step_next_cases {s t : State} (h : step s = .next t) :
    s.cfg.Legal ∧ ((s.halted = true ∧ t = s) ∨ (s.halted = false ∧ exec s.fetch s = .next t)) := by
  unfold step at h
  split at h
  · rename_i hl
    refine ⟨hl, ?_⟩
    split at h
    · rename_i hh; left; injection h with h; exact ⟨hh, h.symm⟩
    · rename_i hh; right; exact ⟨by simpa using hh, h⟩
  · cases h

end Sys2Proof.Machine
end

