-- ==== Sys2Proof/Tests/Slice0.lean ====
section
/-! SUPPORT. The model's own tests. Expected values are those of spec/95_test_vectors.md (the section is named) or worked out by
hand from the rule named; words are written out bit by bit from spec/30_encoding.md R130 and R132. -/

namespace Sys2Proof.Tests

open Sys2Proof Sys2Proof.Machine

/-! Decoding: one word per constructor (R130 patterns; sections 2.1, 2.2). -/

theorem test_decode_add : decode 0b000_001_010_011_0000#16 = .add 3#3 1#3 2#3 := by decide
theorem test_decode_sub : decode 0b000_001_010_011_0001#16 = .sub 3#3 1#3 2#3 := by decide
theorem test_decode_or : decode 0b000_001_010_011_0010#16 = .or 3#3 1#3 2#3 := by decide
theorem test_decode_and : decode 0b000_001_010_011_0011#16 = .and 3#3 1#3 2#3 := by decide
theorem test_decode_slt : decode 0b000_010_001_011_0100#16 = .slt 3#3 2#3 1#3 := by decide
theorem test_decode_jr : decode 0b000_111_111111_1000#16 = .jr 7#3 0b111111#6 := by decide
theorem test_decode_addi : decode 0b001_000_001_0000101#16 = .addi 1#3 0#3 5#7 := by decide
theorem test_decode_j : decode 0b010_1111111111111#16 = .j 8191#13 := by decide
theorem test_decode_jal : decode 0b011_0000001100100#16 = .jal 100#13 := by decide
theorem test_decode_lw : decode 0b100_001_010_0000101#16 = .lw 2#3 1#3 5#7 := by decide
theorem test_decode_sw : decode 0b101_001_010_1111111#16 = .sw 2#3 1#3 127#7 := by decide
theorem test_decode_jeq : decode 0b110_001_010_0000011#16 = .jeq 1#3 2#3 3#7 := by decide
theorem test_decode_slti : decode 0b111_001_011_0000110#16 = .slti 3#3 1#3 6#7 := by decide
theorem test_decode_undef5 : decode 0b000_001_010_011_0101#16 = .undef5 3#3 1#3 2#3 := by decide
theorem test_decode_undef6 : decode 0b000_001_010_011_0110#16 = .undef6 3#3 1#3 2#3 := by decide
theorem test_decode_undef7 : decode 0b000_001_010_011_0111#16 = .undef7 3#3 1#3 2#3 := by decide
theorem test_decode_undef9 : decode 0b000_001_010_011_1001#16 = .undef9 3#3 1#3 2#3 := by decide
theorem test_decode_undef10 : decode 0b000_001_010_011_1010#16 = .undef10 3#3 1#3 2#3 := by decide
theorem test_decode_undef11 : decode 0b000_001_010_011_1011#16 = .undef11 3#3 1#3 2#3 := by decide
theorem test_decode_undef12 : decode 0b000_001_010_011_1100#16 = .undef12 3#3 1#3 2#3 := by decide
theorem test_decode_undef13 : decode 0b000_001_010_011_1101#16 = .undef13 3#3 1#3 2#3 := by decide
theorem test_decode_undef14 : decode 0b000_001_010_011_1110#16 = .undef14 3#3 1#3 2#3 := by decide
theorem test_decode_undef15 : decode 0b000_111_111_111_1111#16 = .undef15 7#3 7#3 7#3 := by decide

/-- Every output is driven for every word (section 2.1, row 0x24FF). -/
theorem test_ports_24FF :
    decoderPorts 0x24FF#16 = ⟨1#3, .I, 1#3, 1#3, 7#3, 15#4, 0x7F#7, 0xFFFF#16, 0x04FF#13, .addi⟩ := by decide

/-- The worked example of R135. -/
theorem test_variant_2085 : decodeVariant 0x2085#16 = .ImmediateOp 1#3 0#3 1#3 5#16 := by decide

theorem test_decode_table_word : decodeTableWord 16 0x6064 = some (.jal 100#13) ∧ decodeTableWord 17 0 = none := by decide

/-! Well-formedness: each check refuses a value one past its field (R123 to R125). -/

theorem test_register_field_too_wide : fitsField 3 8 = false := by decide
theorem test_ignored_field_too_wide : fitsField 6 64 = false := by decide
theorem test_immediate_field_too_wide : fitsField 7 128 = false := by decide
theorem test_address_field_too_wide : fitsField 13 8192 = false := by decide

/-! States for the tests. -/

/-- A running machine without caches: pc, registers 1, 2 and 7, memory. -/
def plain (pc : Addr) (x1 x2 x7 : Word) (m : Memory) : State :=
  { State.reset with pc := pc, regs := ⟨x1, x2, 0#16, 0#16, 0#16, 0#16, x7⟩, mem := m }

/-- One field of the state an instruction answers. -/
def after {α : Type} (f : State → α) : Host.Outcome State Fault Refusal → Option α
  | .next s => some (f s)
  | .fault _ => none
  | .refused _ => none

/-- The state of program P3 (section 3) before its step 4, under a value of `l2HitPromotes`. -/
def p3 (promotes : Bool) : State :=
  { State.reset with
    pc := 5#13, mem := [(5, 0x81A8#16), (40, 0x8001#16), (41, 0x0041#16), (42, 0x0042#16)], l2HitPromotes := promotes
    cache := .twoLevel ⟨⟨1, 1, 1⟩, [[⟨41, [0x0041#16]⟩]]⟩
      ⟨⟨2, 2, 1⟩, [[⟨41, [0x0041#16]⟩, ⟨40, [0x8001#16]⟩]]⟩ }

/-- The level 2,2,1 after the second access of section 2.7's "store hit" sequence, with its memory. -/
def pair : Level := ⟨⟨2, 2, 1⟩, [[⟨11, [0x000B#16]⟩, ⟨10, [0x000A#16]⟩]]⟩
def pairMem : Memory := [(10, 0x000A#16), (11, 0x000B#16), (12, 0x000C#16)]
/-- The same level in L1-only mode, about to execute a word at address 2. -/
def pairState (w : Word) : State := { State.reset with pc := 2#13, mem := (2, w) :: pairMem, cache := .oneLevel pair }

/-- Section 2.8: L1 = 1,1,1 and L2 = 4,1,2 after W7 step 4, x1 = 9, sw $1, 20($0) at address 1. -/
def w7 : State :=
  { State.reset with
    pc := 1#13, regs := ⟨9#16, 0#16, 0#16, 0#16, 0#16, 0#16, 0#16⟩, mem := [(1, 0xA094#16), (20, 5#16)]
    cache := .twoLevel ⟨⟨1, 1, 1⟩, [[⟨21, [0#16]⟩]]⟩ ⟨⟨4, 1, 2⟩, [[⟨5, [5#16, 0#16]⟩], []]⟩ }

/-! Instructions: one or two steps each (sections 2.2 to 2.5). -/

theorem test_add_wraps : after (·.reg 3#3) (exec (.add 3#3 1#3 2#3) (plain 4#13 0xFFFF#16 2#16 0#16 [])) = some 1#16 := by decide
theorem test_sub_wraps : after (·.reg 3#3) (exec (.sub 3#3 1#3 2#3) (plain 4#13 0#16 1#16 0#16 [])) = some 0xFFFF#16 := by decide
theorem test_or : after (·.reg 3#3) (exec (.or 3#3 1#3 2#3) (plain 4#13 0xF0#16 0xF0F#16 0#16 [])) = some 0xFFF#16 := by decide
theorem test_and : after (·.reg 3#3) (exec (.and 3#3 1#3 2#3) (plain 4#13 0xF0#16 0xF3F#16 0#16 [])) = some 0x30#16 := by decide
theorem test_slt_signed :
    after (·.reg 3#3) (exec (.slt 3#3 1#3 2#3) (plain 4#13 0x8000#16 0x7FFF#16 0#16 [])) = some 1#16 ∧
    after (·.reg 3#3) (exec (.slt 3#3 1#3 2#3) (plain 4#13 0x7FFF#16 0x8000#16 0#16 [])) = some 0#16 := by decide
theorem test_jr_wraps : after (·.pc) (exec (.jr 1#3 0#6) (plain 4#13 0x2002#16 0#16 0#16 [])) = some 2#13 := by decide
theorem test_jr_halts :
    after (fun s => (s.pc, s.halted)) (exec (.jr 1#3 0#6) (plain 10#13 0x200A#16 0#16 0#16 [])) = some (10#13, true) := by decide
theorem test_undef5_nop : after (·.pc) (exec (.undef5 3#3 1#3 2#3) (plain 4#13 1#16 2#16 0#16 [])) = some 5#13 := by decide
theorem test_undef15_nop_wraps : after (·.pc) (exec (.undef15 7#3 7#3 7#3) (plain 8191#13 1#16 2#16 0#16 [])) = some 0#13 := by
  decide
theorem test_undef5_refused :
    exec (.undef5 0#3 0#3 0#3) { State.reset with undefFunc := .refuse } = .refused .undefinedFunction := rfl
theorem test_addi_wraps : after (·.reg 2#3) (exec (.addi 2#3 1#3 1#7) (plain 4#13 0x7FFF#16 0#16 0#16 [])) = some 0x8000#16 := by
  decide
theorem test_addi_negative : after (·.reg 1#3) (exec (.addi 1#3 0#3 0x40#7) State.reset) = some 0xFFC0#16 := by decide
theorem test_slti_signed :
    after (·.reg 2#3) (exec (.slti 2#3 1#3 0x40#7) (plain 4#13 0xFFBF#16 0#16 0#16 [])) = some 1#16 ∧
    after (·.reg 2#3) (exec (.slti 2#3 1#3 0x40#7) (plain 4#13 0xFFC0#16 0#16 0#16 [])) = some 0#16 := by decide
theorem test_lw_wraps :
    after (·.reg 2#3) (exec (.lw 2#3 1#3 5#7) (plain 4#13 8190#16 0#16 0#16 [(3, 0x0BAD#16)])) = some 0x0BAD#16 := by decide
theorem test_lw_register_zero_still_loads :
    after (fun s => (s.reg 0#3, s.events, s.cache))
      (exec (.lw 0#3 0#3 9#7)
        { State.reset with mem := [(9, 0x1234#16)], cache := .oneLevel ⟨⟨2, 1, 1⟩, [[], []]⟩ }) =
      some (0#16, [⟨.L1, .MISS, 0#13, 9#13, 1⟩], .oneLevel ⟨⟨2, 1, 1⟩, [[], [⟨4, [0x1234#16]⟩]]⟩) := by decide
theorem test_sw_stores :
    after (·.mem) (exec (.sw 2#3 1#3 0x7F#7) (plain 4#13 0#16 0xBEEF#16 0#16 [])) = some [(8191, 0xBEEF#16)] := by decide
theorem test_sw_zero_unlists :
    after (·.mem) (exec (.sw 0#3 0#3 3#7) (plain 4#13 0#16 0#16 0#16 [(3, 0x0BAD#16)])) = some [] := by decide
theorem test_jeq_taken : after (·.pc) (exec (.jeq 1#3 2#3 3#7) (plain 10#13 0x1234#16 0x1234#16 0#16 [])) = some 14#13 := by decide
theorem test_jeq_not_taken_wraps : after (·.pc) (exec (.jeq 1#3 0#3 0#7) (plain 8191#13 1#16 0#16 0#16 [])) = some 0#13 := by
  decide
theorem test_j_halts :
    after (fun s => (s.pc, s.halted)) (exec (.j 8191#13) (plain 8191#13 0#16 0#16 0#16 [])) = some (8191#13, true) := by decide
theorem test_jal_links_before_halting :
    after (fun s => (s.reg 7#3, s.pc, s.halted)) (exec (.jal 5#13) (plain 5#13 0#16 0#16 0#16 [])) =
      some (6#16, 5#13, true) := by decide
theorem test_jal_link_unreduced :
    after (fun s => (s.reg 7#3, s.pc)) (exec (.jal 0#13) (plain 8191#13 0#16 0#16 0#16 [])) = some (0x2000#16, 0#13) := by decide

/-! The cache controller (sections 2.6 to 2.8, 3). -/

theorem test_decomposition :
    [(13#13, (⟨16, 2, 4⟩ : LevelConfig)), (8191#13, ⟨12, 1, 3⟩), (10#13, ⟨6, 2, 1⟩)].map
      (fun p => (p.2.rowCount, blockIdOf p.2 p.1, rowIndexOf p.2 p.1, tagOf p.2 p.1, offsetOf p.2 p.1)) =
      [(2, 3, 1, 1, 1), (4, 2730, 2, 682, 1), (3, 10, 1, 3, 0)] := by decide

theorem test_illegal_configurations :
    [(⟨10, 2, 4⟩ : LevelConfig), ⟨0, 1, 1⟩, ⟨4, 0, 1⟩, ⟨4, 1, 0⟩, ⟨2, 4, 1⟩].map (fun c => decide c.Legal) =
      [false, false, false, false, false] := by decide

/-- The last block wraps past address 8191 (section 2.7, "Block past address 8191"). -/
theorem test_fill_wraps :
    ((emptyLevel ⟨3, 1, 3⟩).load [(0, 0x817F#16), (1, 0x4001#16)] 8191#13) =
      (⟨⟨3, 1, 3⟩, [[⟨2730, [0#16, 0#16, 0x817F#16]⟩]]⟩, .MISS) := by decide

/-- P3 step 4: the L2 hit promotes or not; L1 is filled; the L1 event comes first. -/
theorem test_l2_hit_promotes :
    after (fun s => (s.reg 3#3, s.cache, s.events)) (step (p3 true)) =
      some (0x8001#16,
        .twoLevel ⟨⟨1, 1, 1⟩, [[⟨40, [0x8001#16]⟩]]⟩ ⟨⟨2, 2, 1⟩, [[⟨40, [0x8001#16]⟩, ⟨41, [0x0041#16]⟩]]⟩,
        [⟨.L1, .MISS, 5#13, 40#13, 0⟩, ⟨.L2, .HIT, 5#13, 40#13, 0⟩]) := by decide
theorem test_l2_hit_does_not_promote :
    after (·.cache) (step (p3 false)) =
      some (.twoLevel ⟨⟨1, 1, 1⟩, [[⟨40, [0x8001#16]⟩]]⟩
        ⟨⟨2, 2, 1⟩, [[⟨41, [0x0041#16]⟩, ⟨40, [0x8001#16]⟩]]⟩) := by decide

/-- A store that hits updates and promotes (section 2.7). -/
theorem test_store_hit_promotes :
    after (fun s => (s.cache, s.events)) (step (pairState 0xA00A#16)) =
      some (.oneLevel ⟨⟨2, 2, 1⟩, [[⟨10, [0#16]⟩, ⟨11, [0x000B#16]⟩]]⟩, [⟨.L1, .SW, 2#13, 10#13, 0⟩]) := by decide

/-- A store that misses L1 and hits L2 (section 2.8). -/
theorem test_store_updates_levels_independently :
    after (fun s => (s.mem, s.cache, s.events)) (step w7) =
      some ([(1, 0xA094#16), (20, 9#16)],
        .twoLevel ⟨⟨1, 1, 1⟩, [[⟨20, [9#16]⟩]]⟩ ⟨⟨4, 1, 2⟩, [[⟨5, [9#16, 0#16]⟩], []]⟩,
        [⟨.L1, .SW, 1#13, 20#13, 0⟩, ⟨.L2, .SW, 1#13, 20#13, 0⟩]) := by decide

/-- The first word of an image runs first from reset (W8, scenario 1). -/
theorem test_scenario_1 :
    after (fun s => (s.pc, s.halted, s.regs)) (step (State.reset.withFetchWord 16 0x4000)) =
      some (0#13, true, State.reset.regs) := by decide

/-- A launch with an image of one line `j 0` (R272, R276). -/
def jZeroLine : ImageLine :=
  ⟨0, [false, true, false, false, false, false, false, false, false, false, false, false, false, false, false, false]⟩
def launched (r : Except LaunchError State) : Option State := r.toOption

theorem test_launch_no_cache :
    (launched (launch none [jZeroLine] false .nop)).map (fun s => (s.mem, s.cache)) = some ([(0, 0x4000#16)], .noCache) := by
  decide

/-- Reports after P3 step 4 (R277, R250). -/
theorem test_reports :
    after (fun s => (eventCount s .L1 .MISS, eventCount s .L2 .HIT, eventCount s .L1 .SW)) (step (p3 true)) = some (1, 1, 0) ∧
    configurationReport (p3 true) = [⟨.L1, 1, 1, 1, 1⟩, ⟨.L2, 2, 2, 1, 1⟩] ∧
    (finalStateReport (p3 true)).memory.take 6 = [0#16, 0#16, 0#16, 0#16, 0#16, 0x81A8#16] := by decide

/-! Witnesses: concrete states and operands that meet the hypotheses of the obligations, clause by clause. -/

theorem witness_wellFormed : WellFormed (.add 7#3 0#3 7#3) = true ∧ WellFormed (.jr 7#3 63#6) = true := by decide

/-- JrIgnoresItsUnusedBits. -/
theorem witness_jr_words :
    (0x1C08#16).toNat / 8192 = 0 ∧ (0x1FF8#16).toNat / 8192 = 0 ∧ (0x1C08#16).toNat % 16 = 8 ∧ (0x1FF8#16).toNat % 16 = 8 ∧
      (0x1C08#16).toNat / 1024 % 8 = (0x1FF8#16).toNat / 1024 % 8 := by decide

/-- StepRunsTheDecodedInstruction, EveryLegalStateHasANextState. -/
theorem witness_running :
    (p3 true).cfg.Legal ∧ (p3 true).halted = false ∧ (p3 true).undefFunc = .nop ∧ WellFormed (.lw 3#3 0#3 40#7) = true ∧
      decode ((p3 true).word (p3 true).pc) = .lw 3#3 0#3 40#7 := by decide

/-- HaltedMachineKeepsItsState. -/
theorem witness_halted :
    ({ p3 true with halted := true } : State).cfg.Legal ∧ ({ p3 true with halted := true } : State).halted = true := by decide

/-- IllegalConfigurationHasNoStep: each clause (the levels of section 2.6), in L1 and in L2. -/
theorem witness_illegal :
    (⟨⟨0, 1, 1⟩, []⟩ : Level) ∈ (Hierarchy.oneLevel ⟨⟨0, 1, 1⟩, []⟩).levels ∧
    (⟨⟨4, 0, 1⟩, []⟩ : Level) ∈ (Hierarchy.twoLevel pair ⟨⟨4, 0, 1⟩, []⟩).levels ∧
    (⟨⟨4, 1, 0⟩, []⟩ : Level) ∈ (Hierarchy.oneLevel ⟨⟨4, 1, 0⟩, []⟩).levels ∧
    (⟨⟨10, 2, 4⟩, []⟩ : Level) ∈ (Hierarchy.twoLevel pair ⟨⟨10, 2, 4⟩, []⟩).levels ∧ 10 % (2 * 4) ≠ 0 := by decide

/-- OnlySelfTransfersHalt, NoStepChangesTheConfiguration: steps that halt (j, jal, jr, jeq) and one that does not. -/
theorem witness_halting_steps :
    (∃ t, step (plain 8191#13 0#16 0#16 0#16 [(8191, 0x5FFF#16)]) = .next t ∧ t.halted = true) ∧
    (∃ t, step (plain 5#13 0#16 0#16 0#16 [(5, 0x6005#16)]) = .next t ∧ t.halted = true) ∧
    (∃ t, step (plain 10#13 0x200A#16 0#16 0#16 [(10, 0x0408#16)]) = .next t ∧ t.halted = true) ∧
    (∃ t, step (plain 20#13 0#16 0#16 0#16 [(20, 0xC07F#16)]) = .next t ∧ t.halted = true) ∧
    (∃ t, step State.reset = .next t ∧ t.halted = false) :=
  ⟨⟨_, rfl, rfl⟩, ⟨_, rfl, rfl⟩, ⟨_, rfl, rfl⟩, ⟨_, rfl, rfl⟩, ⟨_, rfl, rfl⟩⟩

/-- OnlyTheDestinationRegisterChanges, EventsAreOnlyAppended (a load), EveryStepKeepsTheInvariant: a step that changes register
3 and appends events. -/
theorem witness_step_changes_register : ∃ t, step (p3 true) = .next t ∧ t.reg 3#3 ≠ (p3 true).reg 3#3 :=
  ⟨_, rfl, by decide⟩

/-- EventsAreOnlyAppended, OnlyStoresWriteMainMemory: a step of neither lw nor sw, and one of sw. -/
theorem witness_step_other :
    (∃ t, step State.reset = .next t) ∧ (∀ d b imm, State.reset.fetch ≠ .lw d b imm ∧ State.reset.fetch ≠ .sw d b imm) ∧
    (∃ t, step w7 = .next t) ∧ w7.halted = false ∧ w7.fetch = .sw 1#3 0#3 20#7 := by
  have h : State.reset.fetch = .add 0#3 0#3 0#3 := by decide
  refine ⟨⟨_, rfl⟩, fun d b imm => ?_, ⟨_, rfl⟩, rfl, by decide⟩
  rw [h]; exact ⟨nofun, nofun⟩

/-- RegisterZeroIsHardWired: the clause for the other registers. -/
theorem witness_other_registers : (1#3 : RegId) ≠ 0#3 ∧ (7#3 : RegId) ≠ 0#3 ∧ (7#3 : RegId) ≠ 1#3 := by decide

/-- UndefinedFuncDoesNothing: the first and the last word, in both modes. -/
theorem witness_undefined :
    (decode 0x0005#16).kind = .UNDEF ∧ (decode 0x1FFF#16).kind = .UNDEF ∧ State.reset.undefFunc = .nop ∧
      ({ State.reset with undefFunc := .refuse } : State).undefFunc = .refuse := by decide

/-- The invariant of states with resident blocks: LwLoadsTheMemoryWord, SwStoresTheRegister, LoadReturnsTheLastStore (an equal and
another address), EveryStepKeepsTheInvariant, TagsAreBounded. -/
theorem witness_invariant :
    MachineInv (p3 true) ∧ MachineInv w7 ∧ MachineInv (pairState 0xA00A#16) ∧ w7.mem.wf = true ∧ (20#13 : Addr) ≠ 21#13 := by
  refine ⟨⟨rfl, ?_⟩, ⟨rfl, ?_⟩, ⟨rfl, ?_⟩, rfl, by decide⟩ <;> decide

/-- TagsAreBounded: the largest tag, in a level of one-word blocks. -/
def topState : State :=
  { State.reset with mem := [(8191, 7#16)], cache := .oneLevel ⟨⟨1, 1, 1⟩, [[⟨8191, [7#16]⟩]]⟩ }
theorem witness_largest_tag :
    MachineInv topState ∧ (⟨8191, [7#16]⟩ : Entry) ∈ (⟨⟨1, 1, 1⟩, [[⟨8191, [7#16]⟩]]⟩ : Level).row 0 := by
  refine ⟨⟨rfl, by decide⟩, by decide⟩

/-- JeqBranchesOnEquality: equal and different registers. -/
theorem witness_jeq :
    (plain 10#13 5#16 5#16 0#16 []).reg 1#3 = (plain 10#13 5#16 5#16 0#16 []).reg 2#3 ∧
      (plain 10#13 5#16 6#16 0#16 []).reg 1#3 ≠ (plain 10#13 5#16 6#16 0#16 []).reg 2#3 := by decide

/-- PromoteMovesTheEntryToTheHead: an entry at the head and one behind it. -/
theorem witness_promote :
    0 < pair.rows.length ∧ pair.row 0 = [] ++ ⟨11, [0x000B#16]⟩ :: [⟨10, [0x000A#16]⟩] ∧
      pair.row 0 = [⟨11, [0x000B#16]⟩] ++ ⟨10, [0x000A#16]⟩ :: [] ∧
      ∀ x ∈ [(⟨11, [0x000B#16]⟩ : Entry)], x.tag ≠ (⟨10, [0x000A#16]⟩ : Entry).tag := by decide

/-- AllocateEvictsTheLastAndInsertsAtTheHead, LevelLoadHitsOrFills, LevelStoreUpdatesOrAllocates (a miss): a full row and one that
is not full. -/
theorem witness_allocate :
    LevelWf pair ∧ ¬Hits pair 12#13 ∧ pair.row (rowIndexOf pair.cfg 12#13) = [⟨11, [0x000B#16]⟩] ++ [⟨10, [0x000A#16]⟩] ∧
      ([⟨11, [0x000B#16]⟩] ++ [⟨10, [0x000A#16]⟩] : Row).length = pair.cfg.assoc ∧
      LevelWf (emptyLevel ⟨2, 2, 1⟩) ∧ ¬Hits (emptyLevel ⟨2, 2, 1⟩) 12#13 ∧
      ((emptyLevel ⟨2, 2, 1⟩).row 0).length ≠ 2 ∧ memRead pairMem (12#13 : Addr).toNat = 0x000C#16 := by decide

/-- LevelLoadHitsOrFills, LevelStoreUpdatesOrAllocates (a hit), LowerHitKeepsItsEntries. -/
theorem witness_hit :
    LevelWf pair ∧ Hits pair 10#13 ∧ (⟨10, [0x000A#16]⟩ : Entry) ∈ pair.row (rowIndexOf pair.cfg 10#13) ∧
      tagOf pair.cfg 10#13 = 10 ∧ memRead pairMem (10#13 : Addr).toNat = 0x000A#16 := by decide

/-- OnlyTheAddressedRowChanges, FillReadsTheBlockFromMemory: another row, the first and the last word of a block. -/
theorem witness_other_row : 1 ≠ rowIndexOf ⟨2, 1, 1⟩ 26#13 ∧ 0 < (⟨3, 1, 3⟩ : LevelConfig).blocksize ∧
    2 < (⟨3, 1, 3⟩ : LevelConfig).blocksize := by decide

/-- UpperHitLeavesTheLowerLevel, UpperMissFillsFromMemory: an L1 hit, an L1 miss with an L2 hit, an L1 miss with an L2 miss. -/
theorem witness_two_levels :
    Hits ⟨⟨1, 1, 1⟩, [[⟨41, [0x0041#16]⟩]]⟩ 41#13 ∧ ¬Hits ⟨⟨1, 1, 1⟩, [[⟨41, [0x0041#16]⟩]]⟩ 40#13 ∧
      Hits ⟨⟨2, 2, 1⟩, [[⟨41, [0x0041#16]⟩, ⟨40, [0x8001#16]⟩]]⟩ 40#13 ∧
      ¬Hits ⟨⟨1, 1, 1⟩, [[⟨41, [0x0041#16]⟩]]⟩ 42#13 ∧
      ¬Hits ⟨⟨2, 2, 1⟩, [[⟨41, [0x0041#16]⟩, ⟨40, [0x8001#16]⟩]]⟩ 42#13 := by decide

/-- The modes: LoadWithoutAndWithOneLevel, StoreWritesThroughEveryLevel, UpperHitLeavesTheLowerLevel, UpperMissFillsFromMemory. -/
theorem witness_modes :
    State.reset.cache = .noCache ∧ (pairState 0xA00A#16).cache = .oneLevel pair ∧
      (p3 true).cache = .twoLevel ⟨⟨1, 1, 1⟩, [[⟨41, [0x0041#16]⟩]]⟩
        ⟨⟨2, 2, 1⟩, [[⟨41, [0x0041#16]⟩, ⟨40, [0x8001#16]⟩]]⟩ := ⟨rfl, rfl, rfl⟩

/-- RowsHoldTheMostRecentTags, EveryStartKeepsTheInvariant, EveryStartKeepsTheLruOrder, StartOfARun, CachesAreTransparentToARun: legal configurations of
none, one and two levels, and an image of the largest length. -/
theorem witness_configurations :
    (⟨16, 2, 4⟩ : LevelConfig).Legal ∧ 1 < (⟨16, 2, 4⟩ : LevelConfig).rowCount ∧ (⟨[], false, .nop⟩ : Config).Legal ∧
      (⟨[⟨1, 1, 1⟩, ⟨4, 1, 2⟩], true, .nop⟩ : Config).Legal ∧
      (⟨[⟨12, 1, 3⟩], false, .nop⟩ : Config).undefFunc = (⟨[⟨1, 1, 1⟩, ⟨4, 1, 2⟩], true, .nop⟩ : Config).undefFunc := by decide
theorem witness_longest_image : (List.replicate 8192 (0xFFFF#16 : Word)).length ≤ 8192 := List.length_replicate.le

/-- CachesAreTransparentToAStep: two states of one view, one with resident blocks and one without caches. -/
theorem witness_same_view :
    MachineInv (p3 true) ∧ MachineInv { p3 true with cache := .noCache } ∧
      (p3 true).view = ({ p3 true with cache := .noCache } : State).view := by
  refine ⟨⟨rfl, by decide⟩, ⟨rfl, by decide⟩, rfl⟩

/-- StoredWordIsExecutedNext: sw $1, 2($0) at address 1 with a resident block (program P4). -/
def p4 : State :=
  { State.reset with
    pc := 1#13, regs := ⟨0x2109#16, 0#16, 0#16, 0#16, 0#16, 0#16, 0#16⟩
    mem := [(1, 0xA082#16), (2, 0x2101#16), (6, 0x2109#16)]
    cache := .oneLevel ⟨⟨2, 1, 1⟩, [[⟨3, [0x2109#16]⟩], []]⟩ }
theorem witness_self_modifying :
    MachineInv p4 ∧ p4.halted = false ∧ p4.fetch = .sw 1#3 0#3 2#7 ∧ effectiveAddr p4 0#3 2#7 = p4.pc + 1#13 ∧
      ∃ t, step p4 = .next t := by
  refine ⟨⟨rfl, by decide⟩, rfl, by decide, by decide, ⟨_, rfl⟩⟩

/-- BadImageHasNoRun: a gap, an address past memory, a short line. -/
theorem witness_bad_images :
    ([⟨1, []⟩] : List ImageLine)[0]? = some ⟨1, []⟩ ∧ (1 : Nat) ≠ 0 ∧
      ([⟨8192, []⟩] : List ImageLine)[0]? = some ⟨8192, []⟩ ∧ 8192 ≤ (⟨8192, []⟩ : ImageLine).addr ∧
      ([⟨0, [true]⟩] : List ImageLine)[0]? = some ⟨0, [true]⟩ ∧ (⟨0, [true]⟩ : ImageLine).bits.length ≠ 16 := by decide

/-- CacheArgumentSelectsTheMode, ImageLinesAreMemoryWords, StartOfARun: launches that have a run, in each mode, and argument counts that
have none. -/
theorem witness_launches :
    (∃ s, launch none [jZeroLine] false .nop = .ok s) ∧ (∃ s, launch (some [2, 1, 1]) [jZeroLine] false .nop = .ok s) ∧
    (∃ s, launch (some [1, 1, 1, 4, 1, 2]) [jZeroLine] true .nop = .ok s) ∧
    ([2, 1] : List Nat).length ≠ 3 ∧ ([2, 1, 1, 1] : List Nat).length ≠ 6 := by
  refine ⟨⟨_, rfl⟩, ⟨_, rfl⟩, ⟨_, rfl⟩, by decide, by decide⟩

/-- CacheArgumentSelectsTheMode, ImageLinesAreMemoryWords: a well-formed image of one line and one of none, and arguments whose
levels are legal, in each mode. -/
theorem witness_well_formed_images :
    ImageWf [jZeroLine] ∧ ImageWf [] ∧ (⟨2, 1, 1⟩ : LevelConfig).Legal ∧ (⟨4, 1, 2⟩ : LevelConfig).Legal ∧
      levelsOfArgs (some [2, 1, 1, 4, 1, 2]) = .ok [⟨2, 1, 1⟩, ⟨4, 1, 2⟩] ∧
      (⟨[⟨2, 1, 1⟩, ⟨4, 1, 2⟩], true, .nop⟩ : Config).Legal := by
  refine ⟨⟨by decide, fun k line h => ?_⟩, ⟨by decide, fun k line h => ?_⟩, by decide, by decide, rfl, by decide⟩
  · cases k with
    | zero => injection h with h; subst h; decide
    | succ k => cases h
  · cases h

/-- EveryStepKeepsTheLruOrder: loads of addresses 40 and 41 with a one-entry L1 row and a two-entry L2 row have happened, and the next
step, a load of 40, misses L1 and hits L2, under both values of the open parameter. -/
def recent (promotes : Bool) : State :=
  { p3 promotes with
    events := [⟨.L1, .MISS, 0#13, 40#13, 0⟩, ⟨.L2, .MISS, 0#13, 40#13, 0⟩, ⟨.L1, .MISS, 1#13, 41#13, 0⟩, ⟨.L2, .MISS, 1#13, 41#13, 0⟩] }
theorem witness_recency (promotes : Bool) :
    MachineInv (recent promotes) ∧ LruInv (recent promotes) ∧ ∃ t, step (recent promotes) = .next t := by
  cases promotes <;> exact ⟨⟨rfl, by decide⟩, ⟨by decide, by decide⟩, ⟨_, rfl⟩⟩

end Sys2Proof.Tests
end

section
/-! PROOFS. Registers (spec/10_state.md R31). -/

namespace Sys2Proof.Machine

@[simp] theorem State.setReg_reg_self (s : State) (r : RegId) (v : Word) (h : r ≠ 0#3) :
    (s.setReg r v).reg r = v := by simp [State.setReg_reg, h]

end Sys2Proof.Machine

namespace Sys2Proof.Proofs
open Sys2Proof.Machine

/-- Settles O18, from the rules of a read after a write: of register 0, of the register written and of another one. -/
theorem registerZeroIsHardWired : Obligations.RegisterZeroIsHardWired := by
  intro s v
  refine ⟨State.reg_zero s, State.setReg_zero s v, fun r hr => ⟨?written, fun q hq => ?others⟩⟩
  case written => exact State.setReg_reg_self s r v hr
  case others => exact State.setReg_reg_ne s r q v hq

end Sys2Proof.Proofs
end

section
/-! PROOFS. Main memory and the cache controller (spec/20_memory.md R71 to R92). -/

namespace Sys2Proof.Machine

/-! One row: its entry of a tag, given where it stands (R73). -/

theorem findEntry_split {before after : Row} {e : Entry} (h : ∀ x ∈ before, x.tag ≠ e.tag) :
    findEntry (before ++ e :: after) e.tag = some e := by
  have hb : before.find? (fun x => x.tag == e.tag) = none := by simpa using h
  simp [findEntry, List.find?_append, hb]

theorem withoutTag_split {before after : Row} {e : Entry} (h : ∀ x ∈ before, x.tag ≠ e.tag) :
    withoutTag (before ++ e :: after) e.tag = before ++ after := by
  have hb : ∀ x ∈ before, ¬(x.tag == e.tag) = true := by simpa using h
  rw [withoutTag, List.eraseP_append_right _ hb, List.eraseP_cons_of_pos (by simp)]

/-- In a row of distinct tags no other entry has the tag of a given one. -/
theorem tag_ne_of_split {before after : Row} {e : Entry} (h : ((before ++ e :: after).map Entry.tag).Nodup) :
    (∀ x ∈ before, x.tag ≠ e.tag) ∧ ∀ x ∈ after, x.tag ≠ e.tag := by
  rw [List.map_append, List.map_cons, List.nodup_append] at h
  obtain ⟨-, hafter, hbefore⟩ := h
  refine ⟨fun x hx => hbefore _ (List.mem_map_of_mem hx) _ List.mem_cons_self, fun x hx heq => ?_⟩
  exact (List.nodup_cons.mp hafter).1 (heq ▸ List.mem_map_of_mem hx)

theorem findEntry_of_mem {row : Row} {e : Entry} (h : (row.map Entry.tag).Nodup) (he : e ∈ row) :
    findEntry row e.tag = some e := by
  obtain ⟨before, after, rfl⟩ := List.append_of_mem he
  exact findEntry_split (tag_ne_of_split h).1

/-! One level: the rows that an operation leaves, and what a hit and a miss do (R71, R73, R76, R77). -/

theorem row_setRow_ne (l : Level) {r q : Nat} (row : Row) (h : q ≠ r) : (l.setRow r row).row q = l.row q := by
  simp [Level.row, Level.setRow, List.getD, Ne.symm h]

theorem Level.promote_row_ne (l : Level) {r q : Nat} (t : Nat) (h : q ≠ r) : (l.promote r t).row q = l.row q := by
  unfold Level.promote
  split
  · exact row_setRow_ne l _ h
  · rfl

theorem Level.updateWord_row_ne (l : Level) {r q : Nat} (t o : Nat) (v : Word) (h : q ≠ r) :
    (l.updateWord r t o v).row q = l.row q := by
  rw [Level.updateWord, Level.promote_row_ne _ t h, row_setRow_ne l _ h]

theorem Level.promote_row_split (l : Level) (r : Nat) {before after : Row} {e : Entry} (hr : r < l.rows.length)
    (hrow : l.row r = before ++ e :: after) (hb : ∀ x ∈ before, x.tag ≠ e.tag) :
    (l.promote r e.tag).row r = e :: (before ++ after) := by
  rw [l.promote_row r _ e hr (hrow ▸ findEntry_split hb), hrow, withoutTag_split hb]

theorem map_of_tag_ne {row : Row} {t : Nat} (f : Entry → Entry) (h : ∀ x ∈ row, x.tag ≠ t) :
    row.map (fun x => if x.tag == t then f x else x) = row :=
  (List.map_congr_left fun x hx => by simp [h x hx]).trans (List.map_id row)

/-- The update replaces the word in the entry of the tag alone, so the promotion finds it where it stood. -/
theorem Level.updateWord_row_split (l : Level) (r o : Nat) (v : Word) {before after : Row} {e : Entry}
    (hr : r < l.rows.length) (hrow : l.row r = before ++ e :: after) (hb : ∀ x ∈ before, x.tag ≠ e.tag)
    (ha : ∀ x ∈ after, x.tag ≠ e.tag) :
    (l.updateWord r e.tag o v).row r = e.setWord o v :: (before ++ after) := by
  have hmap : (l.row r).map (fun x => if x.tag == e.tag then x.setWord o v else x) =
      before ++ e.setWord o v :: after := by
    rw [hrow, List.map_append, List.map_cons, map_of_tag_ne _ hb, map_of_tag_ne _ ha, if_pos (beq_self_eq_true _)]
  rw [Level.updateWord, hmap]
  exact Level.promote_row_split (e := e.setWord o v) _ r (by simpa [Level.setRow] using hr)
    (by rw [row_setRow _ _ _ _ hr, if_pos rfl]) hb

/-- What the row invariants (R48) say of the row an access addresses. -/
theorem addressedRow_wf {l : Level} (hw : LevelWf l) (a : Addr) :
    rowIndexOf l.cfg a < l.rows.length ∧ ((l.row (rowIndexOf l.cfg a)).map Entry.tag).Nodup ∧
      ∀ e ∈ l.row (rowIndexOf l.cfg a), offsetOf l.cfg a < e.data.length := by
  obtain ⟨hlegal, hlen, hrows⟩ := hw
  have hr : rowIndexOf l.cfg a < l.rows.length := hlen ▸ rowIndexOf_lt _ hlegal a
  obtain ⟨-, hnodup, hentries⟩ := hrows _ hr
  exact ⟨hr, hnodup, fun e he => (hentries e he).1 ▸ offsetOf_lt _ hlegal a⟩

theorem hits_iff_probe (l : Level) (a : Addr) : Hits l a ↔ (l.probe a).hit = true := by
  simp [Level.probe, findEntry]

theorem Level.load_of_hits (m : Memory) {l : Level} {a : Addr} (h : Hits l a) :
    l.load m a = (l.promote (rowIndexOf l.cfg a) (tagOf l.cfg a), .HIT) :=
  if_pos ((hits_iff_probe l a).mp h)

theorem Level.load_of_not_hits (m : Memory) {l : Level} {a : Addr} (h : ¬Hits l a) :
    l.load m a = (l.allocate m a, .MISS) :=
  if_neg (fun hp => h ((hits_iff_probe l a).mpr hp))

theorem Level.store_of_hits (m : Memory) {l : Level} {a : Addr} (v : Word) (h : Hits l a) :
    l.store m a v = l.updateWord (rowIndexOf l.cfg a) (tagOf l.cfg a) (offsetOf l.cfg a) v :=
  if_pos ((hits_iff_probe l a).mp h)

theorem Level.store_of_not_hits (m : Memory) {l : Level} {a : Addr} (v : Word) (h : ¬Hits l a) :
    l.store m a v = l.allocate m a :=
  if_neg (fun hp => h ((hits_iff_probe l a).mpr hp))

theorem Level.promote_headWord {l : Level} {a : Addr} {e : Entry} (hw : LevelWf l)
    (he : e ∈ l.row (rowIndexOf l.cfg a)) (ht : e.tag = tagOf l.cfg a) :
    (l.promote (rowIndexOf l.cfg a) (tagOf l.cfg a)).headWord a = e.word (offsetOf l.cfg a) := by
  obtain ⟨hr, hnodup, -⟩ := addressedRow_wf hw a
  have hfind := ht ▸ findEntry_of_mem hnodup he
  unfold Level.headWord
  simp only [Level.promote_cfg, l.promote_row _ _ e hr hfind]

theorem Entry.getElem?_data {e : Entry} {o : Nat} (h : o < e.data.length) : e.data[o]? = some (e.word o) := by
  simp [Entry.word, h]

/-- The load of an L1 hit in two-level mode: L2 is not consulted (R83). -/
theorem State.load_of_upper_hit {s : State} {l1 l2 : Level} {a : Addr} (hc : s.cache = .twoLevel l1 l2)
    (h : Hits l1 a) :
    s.load a = ((l1.load s.mem a).1.headWord a,
      (s.setCache (.twoLevel (l1.load s.mem a).1 l2)).emit (accessEvent s .L1 .HIT l1.cfg a)) := by
  rw [State.load, hc]
  exact if_pos ((hits_iff_probe l1 a).mp h)

/-! Main memory under one instruction (R92). -/

theorem undefinedFunc_next {s t : State} (h : undefinedFunc s = .next t) : t = s.setPc (s.pc + 1#13) := by
  cases hu : s.undefFunc with
  | nop => rw [undefinedFunc_nop s hu] at h; cases h; rfl
  | refuse => rw [undefinedFunc_refuse s hu] at h; cases h

theorem exec_sw_mem {s t : State} {d b : RegId} {imm : Imm7} (h : exec (.sw d b imm) s = .next t) :
    t.mem = memWrite s.mem (effectiveAddr s b imm).toNat (s.reg d) := by
  rw [exec_sw] at h
  cases h
  simp

/-- By what the instruction does: store, write a register, transfer control, load, or nothing at all. -/
theorem exec_mem_of_ne_sw {i : Instr} {s t : State} (h : exec i s = .next t) (hi : ∀ d b imm, i ≠ .sw d b imm) :
    t.mem = s.mem := by
  cases i
  case sw d b imm => exact absurd rfl (hi d b imm)
  case add | sub | or | and | slt | addi | slti =>
    simp only [exec_add, exec_sub, exec_or, exec_and, exec_slt, exec_addi, exec_slti] at h
    cases h
    rfl
  case jr | jeq | j | jal =>
    simp only [exec_jr, exec_jeq, exec_j, exec_jal] at h
    cases h
    simp
  case lw =>
    rw [exec_lw] at h
    cases h
    simp
  case undef5 | undef6 | undef7 | undef9 | undef10 | undef11 | undef12 | undef13 | undef14 | undef15 =>
    rw [exec_undef _ s rfl] at h
    rw [undefinedFunc_next h, State.setPc_mem]

end Sys2Proof.Machine

namespace Sys2Proof.Proofs
open Sys2Proof.Machine

/-- Settles O15: a running machine's step is what its instruction does, and only sw reaches main memory. -/
theorem onlyStoresWriteMainMemory : Obligations.OnlyStoresWriteMainMemory := by
  intro s t hrun hstep
  have hexec : exec s.fetch s = .next t := by
    obtain ⟨-, ⟨hhalted, -⟩ | ⟨-, hexec⟩⟩ := step_next_cases hstep
    · simp [hrun] at hhalted
    · exact hexec
  refine ⟨fun d b imm hsw => ?store, fun hne => ?other⟩
  case store => exact exec_sw_mem (hsw ▸ hexec)
  case other => exact exec_mem_of_ne_sw hexec hne

/-- Settles O35: the entry is the first of its tag, so it is the one that is found and taken out of its row. -/
theorem promoteMovesTheEntryToTheHead : Obligations.PromoteMovesTheEntryToTheHead :=
  fun l r _ _ e hr hrow hb =>
    ⟨l.promote_row_split r hr hrow hb, fun _ hq => l.promote_row_ne e.tag hq, l.promote_cfg r e.tag⟩

/-- Settles O37, by hit and miss: distinct tags make the entry found the given one, and a filled block holds memory's words. -/
theorem levelLoadHitsOrFills : Obligations.LevelLoadHitsOrFills := by
  intro m l a hw
  refine ⟨fun e he ht => ?hit, fun hmiss => ?miss⟩
  case hit =>
    have hload := Level.load_of_hits m ⟨e, he, ht⟩
    obtain ⟨-, -, hoff⟩ := addressedRow_wf hw a
    refine ⟨hload, ?_⟩
    rw [hload, Level.promote_headWord hw he ht, Entry.getElem?_data (hoff e he)]
  case miss =>
    have hload := Level.load_of_not_hits m hmiss
    exact ⟨hload, by rw [hload, l.allocate_headWord m a hw]⟩

/-- Settles O38, by hit and miss: distinct tags make the update touch one entry, and the fill reads the memory written before. -/
theorem levelStoreUpdatesOrAllocates : Obligations.LevelStoreUpdatesOrAllocates := by
  intro m l a v hw hv
  refine ⟨fun before after e hrow ht => ?hit, fun hmiss => ?miss⟩
  case hit =>
    obtain ⟨hr, hnodup, -⟩ := addressedRow_wf hw a
    obtain ⟨hb, ha⟩ := tag_ne_of_split (hrow ▸ hnodup)
    rw [Level.store_of_hits m v ⟨e, by simp [hrow], ht⟩, ← ht]
    exact ⟨l.updateWord_row_split _ _ v hr hrow hb ha, fun q hq => l.updateWord_row_ne _ _ v hq⟩
  case miss =>
    rw [Level.store_of_not_hits m v hmiss]
    exact ⟨rfl, (l.allocate_headWord m a hw).trans hv⟩

/-- Settles O40: the L1 hit decides the two-level load before L2 is looked at. -/
theorem upperHitLeavesTheLowerLevel : Obligations.UpperHitLeavesTheLowerLevel := by
  intro s l1 l2 a hcache hhit
  rw [State.load_of_upper_hit hcache hhit]
  exact ⟨rfl, rfl⟩

end Sys2Proof.Proofs
end

section
/-! PROOFS. Encoding (spec/30_encoding.md R126). -/

namespace Sys2Proof

/-! The sign extension of the 7-bit field, by its sign bit. -/

theorem imm7_signBit (f : Imm7) : f.getLsbD 6 = decide (64 ≤ f.toNat) := f.msb_eq_decide

theorem sext16_toNat_of_lt {f : Imm7} (h : f.toNat < 64) : (sext16 f).toNat = f.toNat := by
  rw [sext16, imm7_signBit, if_neg (by simp [h]), BitVec.toNat_setWidth_of_le (by decide)]

/-- The bits of 0xFF80 lie above the field's seven, so that the OR adds it. -/
theorem sext16_toNat_of_ge {f : Imm7} (h : 64 ≤ f.toNat) : (sext16 f).toNat = 0xFF80 + f.toNat := by
  rw [sext16, imm7_signBit, if_pos (by simp [h]), BitVec.toNat_or, BitVec.toNat_setWidth_of_le (by decide), Nat.or_comm]
  exact (Nat.two_pow_add_eq_or_of_lt f.isLt 511).symm

theorem sext16_toNat_range (f : Imm7) : (sext16 f).toNat ≤ 63 ∨ 65472 ≤ (sext16 f).toNat := by
  obtain h | h := Nat.lt_or_ge f.toNat 64
  case inl => exact .inl (by rw [sext16_toNat_of_lt h]; omega)
  case inr => exact .inr (by rw [sext16_toNat_of_ge h]; omega)

/-! The immediate field of a word. -/

theorem imm7Field_getLsbD_six (w : Word) : (imm7Field w).getLsbD 6 = w.getLsbD 6 := by
  simp [imm7Field]

theorem imm7Field_setWidth (w : Word) : (imm7Field w).setWidth 16 = BitVec.ofNat 16 (w.toNat % 128) := by
  rw [← BitVec.ofNat_toNat, imm7Field, BitVec.extractLsb'_toNat, Nat.shiftRight_zero]

theorem sext16_imm7Field (w : Word) :
    sext16 (imm7Field w) =
      if w.getLsbD 6 then BitVec.ofNat 16 (w.toNat % 128) ||| 0xFF80#16 else BitVec.ofNat 16 (w.toNat % 128) := by
  rw [sext16, imm7Field_getLsbD_six, imm7Field_setWidth]

end Sys2Proof

namespace Sys2Proof.Machine

/-- Either unsigned range, a word being below 65536, is the signed range of seven bits. -/
theorem signedValue_range {v : Word} (h : v.toNat ≤ 63 ∨ 65472 ≤ v.toNat) :
    -64 ≤ signedValue v ∧ signedValue v ≤ 63 := by
  have hv := v.isLt
  unfold signedValue
  split <;> omega

end Sys2Proof.Machine

namespace Sys2Proof.Proofs
open Sys2Proof.Machine

/-- Settles O6: the sign bit puts the extended field in one of two unsigned ranges, which give the signed range. -/
theorem immediateFieldIsSignExtended : Obligations.ImmediateFieldIsSignExtended := by
  intro w
  have hranges := sext16_toNat_range (imm7Field w)
  obtain ⟨hlo, hhi⟩ := signedValue_range hranges
  exact ⟨sext16_imm7Field w, hlo, hhi, hranges⟩

end Sys2Proof.Proofs
end

section
/-! PROOFS. The register form (spec/41_register_form.md R170 to R174, R176). -/

namespace Sys2Proof

/-- A register-form word decodes by its func field alone (R123, R131). -/
theorem decode_encodeRegisterForm (f : Func) (d a b : RegId) :
    decode (encodeRegisterForm f d a b) =
      decodeRegisterForm f d a b (ignoredField (encodeRegisterForm f d a b)) := by
  obtain ⟨hop, ha, hb, hd, hf⟩ := fields_registerForm f d a b
  rw [decode, if_pos hop, ha, hb, hd, hf]

end Sys2Proof

namespace Sys2Proof.Machine

/-! A write of the destination and the advance: what every computing instruction answers (R176). -/

/-- What the destination itself reads after the write: the write is discarded for register 0 (R31). -/
theorem State.setReg_reg_dst (s : State) (d : RegId) (v : Word) :
    (s.setReg d v).reg d = if d = 0#3 then 0#16 else v := by
  split
  case isTrue h => rw [h, State.reg_zero]
  case isFalse h => exact State.setReg_reg_self s d v h

theorem setReg_setPc_frame (s : State) (d : RegId) (v : Word) :
    SameRegsExcept d s ((s.setReg d v).setPc (s.pc + 1#13)) ∧ SameMemory s ((s.setReg d v).setPc (s.pc + 1#13)) ∧
      SameController s ((s.setReg d v).setPc (s.pc + 1#13)) ∧ GoesOn s ((s.setReg d v).setPc (s.pc + 1#13)) := by
  refine ⟨fun r hr => ?regs, fun _ => rfl, ⟨rfl, rfl, rfl⟩, ?pc, rfl⟩
  case regs => rw [State.setPc_reg, State.setReg_reg_ne s d r v hr]
  case pc => exact BitVec.toNat_add s.pc 1#13

/-! The words computed, as numbers. -/

theorem word_sub_toNat (x y : Word) : ((x - y).toNat : Int) = ((x.toNat : Int) - y.toNat) % 65536 := by
  have hy := y.isLt
  rw [BitVec.toNat_sub]
  omega

theorem toInt_eq_signedValue (w : Word) : w.toInt = signedValue w := by
  rw [BitVec.toInt_eq_toNat_cond, signedValue]
  split <;> split <;> omega

theorem signedLess_toNat (x y : Word) :
    (signedLess x y).toNat = if signedValue x < signedValue y then 1 else 0 := by
  rw [signedLess, toInt_eq_signedValue, toInt_eq_signedValue]
  split <;> rfl

end Sys2Proof.Machine

namespace Sys2Proof.Proofs
open Sys2Proof.Machine

/-- Settles O19: the word's sum is the numbers' sum modulo 65536. -/
theorem addWritesTheWrappedSum : Obligations.AddWritesTheWrappedSum := by
  intro d a b s
  refine ⟨decode_encodeRegisterForm 0#4 d a b, _, exec_add d a b s, ?value, setReg_setPc_frame s d _⟩
  rw [State.setPc_reg, State.setReg_reg_dst]
  split
  case isTrue => rfl
  case isFalse => exact BitVec.toNat_add _ _

/-- Settles O20: the word's difference is the integers' difference modulo 65536. -/
theorem subWritesTheWrappedDifference : Obligations.SubWritesTheWrappedDifference := by
  intro d a b s
  refine ⟨decode_encodeRegisterForm 1#4 d a b, _, exec_sub d a b s, ?value, setReg_setPc_frame s d _⟩
  rw [State.setPc_reg, State.setReg_reg_dst]
  split
  case isTrue => rfl
  case isFalse => exact word_sub_toNat _ _

/-- Settles O21, bit by bit; register 0 has no bit set. -/
theorem orWritesTheBitwiseOr : Obligations.OrWritesTheBitwiseOr := by
  intro d a b s
  refine ⟨decode_encodeRegisterForm 2#4 d a b, _, exec_or d a b s, fun k _ => ?value, setReg_setPc_frame s d _⟩
  rw [State.setPc_reg, State.setReg_reg_dst]
  split
  case isTrue hd => simp [hd]
  case isFalse hd => simp [hd]

/-- Settles O22, bit by bit; register 0 has no bit set. -/
theorem andWritesTheBitwiseAnd : Obligations.AndWritesTheBitwiseAnd := by
  intro d a b s
  refine ⟨decode_encodeRegisterForm 3#4 d a b, _, exec_and d a b s, fun k _ => ?value, setReg_setPc_frame s d _⟩
  rw [State.setPc_reg, State.setReg_reg_dst]
  split
  case isTrue hd => simp [hd]
  case isFalse hd => simp [hd]

/-- Settles O23: the model compares by `BitVec.toInt`, which is the two's-complement reading. -/
theorem sltComparesSigned : Obligations.SltComparesSigned := by
  intro d a b s
  refine ⟨decode_encodeRegisterForm 4#4 d a b, _, exec_slt d a b s, ?value, setReg_setPc_frame s d _⟩
  rw [State.setPc_reg, State.setReg_reg_dst]
  split
  case isTrue hd => simp [hd]
  case isFalse hd => simp [hd, signedLess_toNat]

end Sys2Proof.Proofs
end

section
/-! PROOFS. The decoder and the encoder (spec/30_encoding.md R120 to R135). -/

namespace Sys2Proof

/-! Decoding an encoded instruction (R130, R131). -/

/-- The ignored field of jr's word (R133). -/
theorem ignoredField_encode_jr (a : RegId) (ig : BitVec 6) : ignoredField (encode (.jr a ig)) = ig := by
  refine BitVec.eq_of_getLsbD_eq fun i hi => ?_
  simp only [ignoredField, encode, BitVec.getLsbD_extractLsb', BitVec.getLsbD_append]
  interval_cases i <;> simp

theorem decode_encode_jr (a : RegId) (ig : BitVec 6) : decode (encode (.jr a ig)) = .jr a ig := by
  have hdec := decode_encodeRegisterForm 8#4 (ig.extractLsb' 0 3) a (ig.extractLsb' 3 3)
  rw [← jr_registerForm, ignoredField_encode_jr] at hdec
  exact hdec

/-- Form by form: the encoder's word has the operands in the fields the decoder reads. -/
theorem decode_encode (i : Instr) : decode (encode i) = i := by
  cases i
  case jr a ig => exact decode_encode_jr a ig
  case addi | lw | sw | jeq | slti => simp [encode, decode, fields_immediateForm]
  case j | jal => simp [encode, decode, fields_jumpForm]
  case add | sub | or | and | slt | undef5 | undef6 | undef7 | undef9 | undef10 | undef11 | undef12 | undef13 | undef14
      | undef15 =>
    exact decode_encodeRegisterForm _ _ _ _

/-! A word from its fields (R120, R123 to R125). -/

theorem registerForm_of_fields (w : Word) (h : opcodeField w = 0#3) :
    encodeRegisterForm (funcField w) (regDstField w) (regAField w) (regBField w) = w := by
  rw [encodeRegisterForm, ← h]
  refine BitVec.eq_of_getLsbD_eq fun i hi => ?_
  simp only [opcodeField, regAField, regBField, regDstField, funcField, BitVec.getLsbD_extractLsb', BitVec.getLsbD_append]
  interval_cases i <;> simp

theorem immediateForm_of_fields (w : Word) :
    encodeImmediateForm (opcodeField w) (regBField w) (regAField w) (imm7Field w) = w := by
  refine BitVec.eq_of_getLsbD_eq fun i hi => ?_
  simp only [encodeImmediateForm, opcodeField, regAField, regBField, imm7Field, BitVec.getLsbD_extractLsb',
    BitVec.getLsbD_append]
  interval_cases i <;> simp

theorem jumpForm_of_fields (w : Word) : encodeJumpForm (opcodeField w) (addr13Field w) = w := by
  refine BitVec.eq_of_getLsbD_eq fun i hi => ?_
  simp only [encodeJumpForm, opcodeField, addr13Field, BitVec.getLsbD_extractLsb', BitVec.getLsbD_append]
  interval_cases i <;> simp

/-- The bits jr ignores are the regB and regDst fields (R133). -/
theorem ignoredField_eq_append (w : Word) : ignoredField w = regBField w ++ regDstField w := by
  refine BitVec.eq_of_getLsbD_eq fun i hi => ?_
  simp only [ignoredField, regBField, regDstField, BitVec.getLsbD_extractLsb', BitVec.getLsbD_append]
  interval_cases i <;> simp

/-! Encoding a decoded word. -/

/-- The func values, jr's first: it alone carries other fields than regB and regDst (R133). -/
theorem func_cases (f : Func) :
    f = 8#4 ∨ f = 0#4 ∨ f = 1#4 ∨ f = 2#4 ∨ f = 3#4 ∨ f = 4#4 ∨ f = 5#4 ∨ f = 6#4 ∨ f = 7#4 ∨ f = 9#4 ∨ f = 10#4 ∨
      f = 11#4 ∨ f = 12#4 ∨ f = 13#4 ∨ f = 14#4 ∨ f = 15#4 := by
  revert f; decide

theorem encode_jr_append (d a b : RegId) : encode (.jr a (b ++ d)) = encodeRegisterForm 8#4 d a b := by
  refine BitVec.eq_of_getLsbD_eq fun i hi => ?_
  simp only [encode, encodeRegisterForm, BitVec.getLsbD_append]
  interval_cases i <;> simp

theorem encode_decodeRegisterForm (f : Func) (d a b : RegId) :
    encode (decodeRegisterForm f d a b (b ++ d)) = encodeRegisterForm f d a b := by
  rcases func_cases f with rfl | rfl | rfl | rfl | rfl | rfl | rfl | rfl | rfl | rfl | rfl | rfl | rfl | rfl | rfl | rfl
  · exact encode_jr_append d a b
  all_goals rfl

/-- By the opcode: each form's word is rebuilt from the fields the decoder reads. -/
theorem encode_decode (w : Word) : encode (decode w) = w := by
  have himm := immediateForm_of_fields w
  have hjump := jumpForm_of_fields w
  obtain h | h | h | h | h | h | h | h := Machine.regId_cases (opcodeField w)
  · have hreg := registerForm_of_fields w h
    rw [decode, if_pos h, ignoredField_eq_append, encode_decodeRegisterForm, hreg]
  all_goals
    rw [h] at himm hjump
    simp [decode, h, encode, himm, hjump]

/-! The opcode table sees a word's opcode and func fields only (R130, R132). -/

/-- The word of an opcode and a func field, every other bit 0. -/
def tableWord (op : Opcode) (f : Func) : Word := op ++ 0#9 ++ f

theorem opcodeField_tableWord (op : Opcode) (f : Func) : opcodeField (tableWord op f) = op := by
  revert op f; decide

theorem funcField_tableWord (op : Opcode) (f : Func) : funcField (tableWord op f) = f := by
  revert op f; decide

theorem and_tableMask (w : Word) : w &&& 0xE00F#16 = tableWord (opcodeField w) (funcField w) := by
  refine BitVec.eq_of_getLsbD_eq fun i hi => ?_
  simp only [tableWord, opcodeField, funcField, BitVec.getLsbD_and, BitVec.getLsbD_append, BitVec.getLsbD_extractLsb']
  interval_cases i <;> simp

theorem opcodeTable_mask : ∀ r ∈ opcodeTable, r.mask = 0xE00F#16 &&& r.mask := by decide

theorem rowMatches_tableWord (w : Word) {r : OpcodeRow} (hr : r ∈ opcodeTable) :
    rowMatches w r = rowMatches (tableWord (opcodeField w) (funcField w)) r := by
  have hmask : w &&& r.mask = (w &&& 0xE00F#16) &&& r.mask := by rw [BitVec.and_assoc, ← opcodeTable_mask r hr]
  rw [rowMatches, rowMatches, hmask, and_tableMask]

theorem opcodeRow_decode_tableWord (w : Word) :
    opcodeRow (decode w) = opcodeRow (decode (tableWord (opcodeField w) (funcField w))) := by
  simp only [decode, decodeRegisterForm, opcodeField_tableWord, funcField_tableWord, apply_ite opcodeRow]
  rfl

/-- The 128 pairs of an opcode and a func field. -/
theorem opcodeTable_filter_tableWord (op : Opcode) (f : Func) :
    opcodeTable.filter (rowMatches (tableWord op f)) = [opcodeRow (decode (tableWord op f))] := by
  revert op f; decide

theorem opcodeTable_filter (w : Word) : opcodeTable.filter (rowMatches w) = [opcodeRow (decode w)] := by
  rw [List.filter_congr fun r hr => rowMatches_tableWord w hr, opcodeRow_decode_tableWord, opcodeTable_filter_tableWord]

/-! The decoder's outputs (R120, R122, R135). -/

theorem formatOf_R_iff (op : Opcode) : formatOf op = .R ↔ op.toNat = 0 := by revert op; decide

theorem formatOf_J_iff (op : Opcode) : formatOf op = .J ↔ op.toNat = 2 ∨ op.toNat = 3 := by revert op; decide

theorem opcodeField_toNat (w : Word) : (opcodeField w).toNat = w.toNat / 8192 := by
  have hw := w.isLt
  rw [opcodeField, BitVec.extractLsb'_toNat, Nat.shiftRight_eq_div_pow]
  omega

theorem decode_eq_jr {w : Word} (hop : w.toNat / 8192 = 0) (hf : w.toNat % 16 = 8) :
    decode w = .jr (regAField w) (ignoredField w) := by
  have hopcode : opcodeField w = 0#3 := BitVec.eq_of_toNat_eq ((opcodeField_toNat w).trans hop)
  have hfunc : funcField w = 8#4 := BitVec.eq_of_toNat_eq (by simpa [funcField] using hf)
  rw [decode, if_pos hopcode, hfunc]
  rfl

theorem opcodeRow_kind (i : Instr) : (opcodeRow i).kind = i.kind := by
  cases i <;> rfl

theorem kindOf_tableWord (op : Opcode) (f : Func) :
    kindOf (tableWord op f) = (opcodeRow (decode (tableWord op f))).kind := by
  revert op f; decide

/-- The kind wire, like the table, sees the opcode and func fields alone. -/
theorem kindOf_eq_kind_decode (w : Word) : kindOf w = (decode w).kind := by
  have hkind : kindOf w = kindOf (tableWord (opcodeField w) (funcField w)) := by
    simp only [kindOf, opcodeField_tableWord, funcField_tableWord]
  rw [hkind, kindOf_tableWord, ← opcodeRow_decode_tableWord, opcodeRow_kind]

end Sys2Proof

namespace Sys2Proof.Proofs
open Sys2Proof.Machine

/-- Settles O1, form by form. -/
theorem decodeOfEncodeGivesTheInstructionBack : Obligations.DecodeOfEncodeGivesTheInstructionBack :=
  fun i _ => decode_encode i

/-- Settles O2, form by form. -/
theorem encodeOfDecodeGivesTheWordBack : Obligations.EncodeOfDecodeGivesTheWordBack := encode_decode

/-- Settles O3: the table and the decoder see the opcode and func fields alone, 128 pairs. -/
theorem everyWordMatchesExactlyItsRow : Obligations.EveryWordMatchesExactlyItsRow := opcodeTable_filter

/-- Settles O4, by running the decoder on the fifteen words. -/
theorem sampleWordsDecode : Obligations.SampleWordsDecode := by
  unfold Obligations.SampleWordsDecode
  decide

/-- Settles O5: a field is a shift and a remainder of the word's number. -/
theorem decoderPortsAreTheWordsBits : Obligations.DecoderPortsAreTheWordsBits := by
  intro w
  have hop := opcodeField_toNat w
  refine ⟨hop, ?_, ?_, ?_, ?_, ?_, ?_, ?formatR, ?formatJ, kindOf_eq_kind_decode w⟩
  case formatR => exact hop ▸ formatOf_R_iff (opcodeField w)
  case formatJ => exact hop ▸ formatOf_J_iff (opcodeField w)
  all_goals
    simp [decoderPorts, regAField, regBField, regDstField, funcField, imm7Field, addr13Field, Nat.shiftRight_eq_div_pow]

/-- Settles O7, by the opcode: the variant holds the form's fields. -/
theorem decoderVariantHoldsTheWord : Obligations.DecoderVariantHoldsTheWord := by
  intro w
  by_cases h0 : opcodeField w = 0#3
  · simp only [decodeVariant, if_pos h0]
    exact (registerForm_of_fields w h0).symm
  by_cases hj : opcodeField w = 2#3 ∨ opcodeField w = 3#3
  · simp only [decodeVariant, if_neg h0, if_pos hj]
    exact ⟨hj, (jumpForm_of_fields w).symm⟩
  · simp only [decodeVariant, if_neg h0, if_neg hj]
    exact ⟨h0, fun h => hj (.inl h), fun h => hj (.inr h), imm7Field w, rfl, (immediateForm_of_fields w).symm⟩

/-- Settles O8: `exec` does not read the bits the decoder carries for jr. -/
theorem jrIgnoresItsUnusedBits : Obligations.JrIgnoresItsUnusedBits := by
  intro w w' s hop hop' hf hf' ha
  have hreg : regAField w = regAField w' :=
    BitVec.eq_of_toNat_eq (by simpa [regAField, Nat.shiftRight_eq_div_pow] using ha)
  rw [decode_eq_jr hop hf, decode_eq_jr hop' hf', exec_jr, exec_jr, hreg]

end Sys2Proof.Proofs
end

section
/-! PROOFS. The step (spec/40_step.md R150 to R159), and what it does to storage. -/

namespace Sys2Proof.Machine

theorem step_of_running {s : State} (hl : s.cfg.Legal) (hrun : s.halted = false) : step s = exec s.fetch s := by
  rw [step, if_pos hl, if_neg (by simp [hrun])]

theorem step_of_halted {s : State} (hl : s.cfg.Legal) (hh : s.halted = true) : step s = .next s := by
  rw [step, if_pos hl, if_pos hh]

theorem step_of_illegal {s : State} (hl : ¬s.cfg.Legal) : step s = .refused .illegalConfiguration := by
  rw [step, if_neg hl]

theorem exec_of_step {s t : State} (hrun : s.halted = false) (h : step s = .next t) : exec s.fetch s = .next t := by
  obtain ⟨-, ⟨hhalted, -⟩ | ⟨-, hexec⟩⟩ := step_next_cases h
  · simp [hrun] at hhalted
  · exact hexec

/-- Only the undefined words can be refused (R177). -/
theorem exec_next_of_nop (i : Instr) {s : State} (h : s.undefFunc = .nop) : ∃ t, exec i s = .next t := by
  cases i
  case undef5 | undef6 | undef7 | undef9 | undef10 | undef11 | undef12 | undef13 | undef14 | undef15 =>
    exact ⟨_, (exec_undef _ s rfl).trans (undefinedFunc_nop s h)⟩
  all_goals exact ⟨_, rfl⟩

/-! Storage: what only lw and sw reach, main memory, the cache and the events, with the parameters that steer them. -/

/-- Two states agree on all but registers, pc and the run state. -/
def SameStorage (s t : State) : Prop :=
  t.mem = s.mem ∧ t.cache = s.cache ∧ t.events = s.events ∧ t.l2HitPromotes = s.l2HitPromotes ∧
    t.undefFunc = s.undefFunc

theorem SameStorage.refl (s : State) : SameStorage s s := ⟨rfl, rfl, rfl, rfl, rfl⟩

theorem sameStorage_setPc (s : State) (p : Addr) : SameStorage s (s.setPc p) := ⟨rfl, rfl, rfl, rfl, rfl⟩

theorem sameStorage_setReg_setPc (s : State) (d : RegId) (v : Word) (p : Addr) :
    SameStorage s ((s.setReg d v).setPc p) := ⟨rfl, rfl, rfl, rfl, rfl⟩

theorem sameStorage_finish (s : State) (n : Word) : SameStorage s (s.finish n) := by
  simp [SameStorage]

theorem sameStorage_setReg_finish (s : State) (d : RegId) (v : Word) (n : Word) :
    SameStorage s ((s.setReg d v).finish n) := by
  simp [SameStorage]

/-- What a step can do to storage: lw's one load, sw's one store, or nothing. -/
theorem exec_storage {i : Instr} {s t : State} (h : exec i s = .next t) :
    (∃ d b imm, i = .lw d b imm ∧ SameStorage (s.load (effectiveAddr s b imm)).2 t) ∨
    (∃ d b imm, i = .sw d b imm ∧ SameStorage (s.store (effectiveAddr s b imm) (s.reg d)) t) ∨ SameStorage s t := by
  cases i
  case lw d b imm =>
    rw [exec_lw] at h
    cases h
    exact .inl ⟨d, b, imm, rfl, sameStorage_setReg_setPc _ _ _ _⟩
  case sw d b imm =>
    rw [exec_sw] at h
    cases h
    exact .inr (.inl ⟨d, b, imm, rfl, sameStorage_setPc _ _⟩)
  case add | sub | or | and | slt | addi | slti =>
    simp only [exec_add, exec_sub, exec_or, exec_and, exec_slt, exec_addi, exec_slti] at h
    cases h
    exact .inr (.inr (sameStorage_setReg_setPc _ _ _ _))
  case jr | jeq | j =>
    simp only [exec_jr, exec_jeq, exec_j] at h
    cases h
    exact .inr (.inr (sameStorage_finish _ _))
  case jal =>
    rw [exec_jal] at h
    cases h
    exact .inr (.inr (sameStorage_setReg_finish _ _ _ _))
  case undef5 | undef6 | undef7 | undef9 | undef10 | undef11 | undef12 | undef13 | undef14 | undef15 =>
    rw [exec_undef _ s rfl] at h
    rw [undefinedFunc_next h]
    exact .inr (.inr (sameStorage_setPc _ _))

theorem step_storage {s t : State} (h : step s = .next t) :
    (∃ d b imm, s.fetch = .lw d b imm ∧ SameStorage (s.load (effectiveAddr s b imm)).2 t) ∨
    (∃ d b imm, s.fetch = .sw d b imm ∧ SameStorage (s.store (effectiveAddr s b imm) (s.reg d)) t) ∨
    SameStorage s t := by
  obtain ⟨-, ⟨-, rfl⟩ | ⟨-, hexec⟩⟩ := step_next_cases h
  · exact .inr (.inr (.refl t))
  · exact exec_storage hexec

/-- A property of storage that every load and every store keeps is kept by every step. -/
theorem step_keeps {P : State → Prop} (hstorage : ∀ {u t : State}, SameStorage u t → P u → P t) {s t : State}
    (hload : ∀ a, P s → P (s.load a).2) (hstore : ∀ a v, P s → P (s.store a v)) (hs : P s) (h : step s = .next t) :
    P t := by
  obtain ⟨d, b, imm, -, ht⟩ | ⟨d, b, imm, -, ht⟩ | ht := step_storage h
  · exact hstorage ht (hload _ hs)
  · exact hstorage ht (hstore _ _ hs)
  · exact hstorage ht hs

theorem SameStorage.cfg_eq {s t : State} (h : SameStorage s t) : t.cfg = s.cfg := by
  obtain ⟨-, hcache, -, hpromotes, hundef⟩ := h
  rw [State.cfg, hcache, hpromotes, hundef, State.cfg]

end Sys2Proof.Machine

namespace Sys2Proof.Proofs
open Sys2Proof.Machine

/-- Settles O9. -/
theorem stepRunsTheDecodedInstruction : Obligations.StepRunsTheDecodedInstruction := by
  intro s i hl hrun _ hdec
  rw [step_of_running hl hrun, ← hdec]
  rfl

/-- Settles O10. -/
theorem haltedMachineKeepsItsState : Obligations.HaltedMachineKeepsItsState :=
  fun _ hl hh => step_of_halted hl hh

/-- Settles O11: each clause contradicts the legality of that level. -/
theorem illegalConfigurationHasNoStep : Obligations.IllegalConfigurationHasNoStep := by
  intro s l hl hbad
  refine step_of_illegal fun hlegal => ?_
  obtain ⟨hsize, hassoc, hblock, hdiv⟩ := hlegal.2 l.cfg (List.mem_map_of_mem hl)
  omega

/-- Settles O12, by the run state. -/
theorem everyLegalStateHasANextState : Obligations.EveryLegalStateHasANextState := by
  intro s hl hnop
  cases hh : s.halted
  case true => exact ⟨s, step_of_halted hl hh⟩
  case false => exact step_of_running hl hh ▸ exec_next_of_nop s.fetch hnop

/-- Settles O16: a load and a store keep the configuration, and it is part of storage. -/
theorem noStepChangesTheConfiguration : Obligations.NoStepChangesTheConfiguration := by
  intro s t h
  refine step_keeps (P := fun u => u.cfg = s.cfg) (fun hu => hu.cfg_eq.trans) (fun a _ => ?_) (fun a v _ => ?_) rfl h
  · exact s.load_cfg a
  · exact s.store_cfg a v

end Sys2Proof.Proofs
end

section
/-! PROOFS. The requests of the cache controller, mode by mode (spec/20_memory.md R80 to R91). -/

namespace Sys2Proof.Machine

/-! One level. -/

theorem Level.allocate_row_ne (m : Memory) (l : Level) (a : Addr) {q : Nat} (h : q ≠ rowIndexOf l.cfg a) :
    (l.allocate m a).row q = l.row q := row_setRow_ne l _ h

theorem evictIfFull_full {n : Nat} {kept : Row} {last : Entry} (h : (kept ++ [last]).length = n) :
    evictIfFull n (kept ++ [last]) = kept := by
  rw [evictIfFull, if_pos h, List.dropLast_concat]

theorem evictIfFull_of_ne {n : Nat} {row : Row} (h : row.length ≠ n) : evictIfFull n row = row := if_neg h

theorem Level.afterUpperMiss_of_hits (m : Memory) (promotes : Bool) {l : Level} {a : Addr} (h : Hits l a) :
    l.afterUpperMiss m promotes a =
      (if promotes then l.promote (rowIndexOf l.cfg a) (tagOf l.cfg a) else l, .HIT) :=
  if_pos ((hits_iff_probe l a).mp h)

theorem Level.afterUpperMiss_of_not_hits (m : Memory) (promotes : Bool) {l : Level} {a : Addr} (h : ¬Hits l a) :
    l.afterUpperMiss m promotes a = (l.allocate m a, .MISS) :=
  if_neg (fun hp => h ((hits_iff_probe l a).mpr hp))

/-- A promotion only reorders its row (R73). -/
theorem Level.promote_row_perm (l : Level) {r : Nat} (t : Nat) (hr : r < l.rows.length) (q : Nat) :
    ((l.promote r t).row q).Perm (l.row q) := by
  obtain rfl | hq := eq_or_ne q r
  · cases hfind : findEntry (l.row q) t
    case none => rw [Level.promote, hfind]
    case some e => rw [l.promote_row q t e hr hfind]; exact promote_perm hfind
  · rw [l.promote_row_ne t hq]

/-! `Load` in each mode (R80 to R87). -/

theorem State.load_of_noCache {s : State} (hc : s.cache = .noCache) (a : Addr) : s.load a = (s.word a, s) := by
  rw [State.load, hc]

theorem State.load_of_oneLevel {s : State} {l1 : Level} (hc : s.cache = .oneLevel l1) (a : Addr) :
    s.load a = ((l1.load s.mem a).1.headWord a,
      (s.setCache (.oneLevel (l1.load s.mem a).1)).emit (accessEvent s .L1 (l1.load s.mem a).2 l1.cfg a)) := by
  rw [State.load, hc]
  rfl

/-- An L1 miss: L2 is consulted, and L1 is filled from main memory. -/
theorem State.load_of_upper_miss {s : State} {l1 l2 : Level} {a : Addr} (hc : s.cache = .twoLevel l1 l2)
    (h : ¬Hits l1 a) :
    s.load a = ((l1.allocate s.mem a).headWord a,
      ((s.setCache (.twoLevel (l1.allocate s.mem a) (l2.afterUpperMiss s.mem s.l2HitPromotes a).1)).emit
        (accessEvent s .L1 .MISS l1.cfg a)).emit
        (accessEvent s .L2 (l2.afterUpperMiss s.mem s.l2HitPromotes a).2 l2.cfg a)) := by
  rw [State.load, hc]
  exact if_neg (fun hp => h ((hits_iff_probe l1 a).mpr hp))

/-! `Store` in each mode (R88 to R91). -/

theorem State.store_of_noCache {s : State} (hc : s.cache = .noCache) (a : Addr) (v : Word) :
    s.store a v = s.setMem (memWrite s.mem a.toNat v) := by
  rw [State.store, State.storeLevels, State.setMem_cache, hc]

theorem State.store_of_oneLevel {s : State} {l1 : Level} (hc : s.cache = .oneLevel l1) (a : Addr) (v : Word) :
    s.store a v =
      ((s.setMem (memWrite s.mem a.toNat v)).setCache (.oneLevel (l1.store (memWrite s.mem a.toNat v) a v))).emit
        (accessEvent s .L1 .SW l1.cfg a) := by
  rw [State.store, State.storeLevels, State.setMem_cache, hc]
  rfl

theorem State.store_of_twoLevel {s : State} {l1 l2 : Level} (hc : s.cache = .twoLevel l1 l2) (a : Addr) (v : Word) :
    s.store a v =
      (((s.setMem (memWrite s.mem a.toNat v)).setCache
        (.twoLevel (l1.store (memWrite s.mem a.toNat v) a v) (l2.store (memWrite s.mem a.toNat v) a v))).emit
        (accessEvent s .L1 .SW l1.cfg a)).emit (accessEvent s .L2 .SW l2.cfg a) := by
  rw [State.store, State.storeLevels, State.setMem_cache, hc]
  rfl

/-! The invariant under the requests (R48, R96). -/

/-- A good level, one that keeps the row invariants and is coherent with a memory. -/
abbrev LevelGood (m : Memory) (l : Level) : Prop := LevelWf l ∧ LevelCoherent m l

theorem machineInv_of_oneLevel {s : State} {l1 : Level} (hc : s.cache = .oneLevel l1) :
    MachineInv s ↔ s.mem.wf = true ∧ LevelGood s.mem l1 := by
  simp [MachineInv, hc, Hierarchy.levels]

theorem machineInv_of_twoLevel {s : State} {l1 l2 : Level} (hc : s.cache = .twoLevel l1 l2) :
    MachineInv s ↔ s.mem.wf = true ∧ LevelGood s.mem l1 ∧ LevelGood s.mem l2 := by
  simp [MachineInv, hc, Hierarchy.levels]

theorem machineInv_load {s : State} (hs : MachineInv s) (a : Addr) : MachineInv (s.load a).2 := by
  cases hc : s.cache
  case noCache => rwa [State.load_of_noCache hc]
  case oneLevel l1 =>
    obtain ⟨hm, h1⟩ := (machineInv_of_oneLevel hc).mp hs
    rw [State.load_of_oneLevel hc]
    exact (machineInv_of_oneLevel rfl).mpr ⟨hm, l1.load_good _ a h1⟩
  case twoLevel l1 l2 =>
    obtain ⟨hm, h1, h2⟩ := (machineInv_of_twoLevel hc).mp hs
    by_cases hit : Hits l1 a
    · rw [State.load_of_upper_hit hc hit]
      exact (machineInv_of_twoLevel rfl).mpr ⟨hm, l1.load_good _ a h1, h2⟩
    · rw [State.load_of_upper_miss hc hit]
      exact (machineInv_of_twoLevel rfl).mpr
        ⟨hm, l1.allocate_good _ a h1 (mt (hits_iff_probe l1 a).mpr hit), l2.afterUpperMiss_good _ _ a h2⟩

theorem machineInv_store {s : State} (hs : MachineInv s) (a : Addr) (v : Word) : MachineInv (s.store a v) := by
  cases hc : s.cache
  case noCache =>
    rw [State.store_of_noCache hc]
    exact ⟨memWrite_wf _ _ _ hs.1, by simp [hc, Hierarchy.levels]⟩
  case oneLevel l1 =>
    obtain ⟨hm, h1⟩ := (machineInv_of_oneLevel hc).mp hs
    rw [State.store_of_oneLevel hc]
    exact (machineInv_of_oneLevel rfl).mpr ⟨memWrite_wf _ _ _ hm, l1.store_good _ a v hm h1⟩
  case twoLevel l1 l2 =>
    obtain ⟨hm, h1, h2⟩ := (machineInv_of_twoLevel hc).mp hs
    rw [State.store_of_twoLevel hc]
    exact (machineInv_of_twoLevel rfl).mpr
      ⟨memWrite_wf _ _ _ hm, l1.store_good _ a v hm h1, l2.store_good _ a v hm h2⟩

/-- Coherence makes a load return main memory's word in every mode. -/
theorem load_word {s : State} (hs : MachineInv s) (a : Addr) : (s.load a).1 = s.word a := by
  cases hc : s.cache
  case noCache => rw [State.load_of_noCache hc]
  case oneLevel l1 =>
    obtain ⟨-, h1⟩ := (machineInv_of_oneLevel hc).mp hs
    rw [State.load_of_oneLevel hc]
    exact l1.load_headWord _ a h1
  case twoLevel l1 l2 =>
    obtain ⟨-, h1, -⟩ := (machineInv_of_twoLevel hc).mp hs
    by_cases hit : Hits l1 a
    · rw [State.load_of_upper_hit hc hit]
      exact l1.load_headWord _ a h1
    · rw [State.load_of_upper_miss hc hit]
      exact l1.allocate_headWord _ a h1.1

theorem SameStorage.machineInv {s t : State} (h : SameStorage s t) (hs : MachineInv s) : MachineInv t := by
  obtain ⟨hmem, hcache, -, -, -⟩ := h
  rwa [MachineInv, hmem, hcache]

theorem step_keeps_machineInv {s t : State} (hs : MachineInv s) (h : step s = .next t) : MachineInv t :=
  step_keeps (fun hu => hu.machineInv) (fun a hi => machineInv_load hi a) (fun a v hi => machineInv_store hi a v) hs h

/-! The events of a request (R50, R51, R83, R84, R89, R90). -/

/-- Records one step may append: at most one for each configured level, of the step's own pc. -/
def AccessEvents (s : State) (es : List Event) : Prop :=
  es.length ≤ s.cfg.levels.length ∧ (es.map Event.level).Nodup ∧
    ∀ e ∈ es, e.pc = s.pc ∧ (e.level = .L2 → s.cfg.levels.length = 2)

theorem accessEvents_nil (s : State) : AccessEvents s [] := by
  simp [AccessEvents]

theorem accessEvents_L1 {s : State} (h : 1 ≤ s.cfg.levels.length) (st : Status) (c : LevelConfig) (a : Addr) :
    AccessEvents s [accessEvent s .L1 st c a] := by
  simpa [AccessEvents, accessEvent] using h

theorem accessEvents_L1_L2 {s : State} (h : s.cfg.levels.length = 2) (st st' : Status) (c c' : LevelConfig) (a : Addr) :
    AccessEvents s [accessEvent s .L1 st c a, accessEvent s .L2 st' c' a] := by
  simp [AccessEvents, accessEvent, h]

theorem levels_length_of_oneLevel {s : State} {l1 : Level} (hc : s.cache = .oneLevel l1) :
    s.cfg.levels.length = 1 := by
  simp [State.cfg, hc, Hierarchy.levels]

theorem levels_length_of_twoLevel {s : State} {l1 l2 : Level} (hc : s.cache = .twoLevel l1 l2) :
    s.cfg.levels.length = 2 := by
  simp [State.cfg, hc, Hierarchy.levels]

theorem State.load_events (s : State) (a : Addr) :
    ∃ es, (s.load a).2.events = s.events ++ es ∧ AccessEvents s es := by
  cases hc : s.cache
  case noCache =>
    rw [State.load_of_noCache hc]
    exact ⟨[], (List.append_nil _).symm, accessEvents_nil s⟩
  case oneLevel l1 =>
    rw [State.load_of_oneLevel hc]
    exact ⟨_, rfl, accessEvents_L1 (levels_length_of_oneLevel hc).ge _ _ _⟩
  case twoLevel l1 l2 =>
    have hlen := levels_length_of_twoLevel hc
    by_cases hit : Hits l1 a
    · rw [State.load_of_upper_hit hc hit]
      exact ⟨_, rfl, accessEvents_L1 (by omega) _ _ _⟩
    · rw [State.load_of_upper_miss hc hit]
      exact ⟨_, List.append_assoc _ _ _, accessEvents_L1_L2 hlen _ _ _ _ _⟩

theorem State.store_events (s : State) (a : Addr) (v : Word) :
    ∃ es, (s.store a v).events = s.events ++ es ∧ AccessEvents s es := by
  cases hc : s.cache
  case noCache =>
    rw [State.store_of_noCache hc]
    exact ⟨[], (List.append_nil _).symm, accessEvents_nil s⟩
  case oneLevel l1 =>
    rw [State.store_of_oneLevel hc]
    exact ⟨_, rfl, accessEvents_L1 (levels_length_of_oneLevel hc).ge _ _ _⟩
  case twoLevel l1 l2 =>
    rw [State.store_of_twoLevel hc]
    exact ⟨_, List.append_assoc _ _ _, accessEvents_L1_L2 (levels_length_of_twoLevel hc) _ _ _ _ _⟩

end Sys2Proof.Machine

namespace Sys2Proof.Proofs
open Sys2Proof.Machine

/-- Settles O50: the invariant speaks of storage, and each request keeps it, mode by mode. -/
theorem everyStepKeepsTheInvariant : Obligations.EveryStepKeepsTheInvariant :=
  fun _ _ => step_keeps_machineInv

/-- Settles O17: a step appends what its one request appends, and nothing without a request. -/
theorem eventsAreOnlyAppended : Obligations.EventsAreOnlyAppended := by
  intro s t h
  obtain ⟨d, b, imm, hlw, -, -, hevents, -⟩ | ⟨d, b, imm, hsw, -, -, hevents, -⟩ | ⟨-, -, hevents, -⟩ := step_storage h
  · obtain ⟨es, hes, hlen, hnodup, hpc⟩ := s.load_events (effectiveAddr s b imm)
    exact ⟨es, hevents.trans hes, hlen, hnodup, hpc, fun hne => absurd hlw (hne d b imm).1⟩
  · obtain ⟨es, hes, hlen, hnodup, hpc⟩ := s.store_events (effectiveAddr s b imm) (s.reg d)
    exact ⟨es, hevents.trans hes, hlen, hnodup, hpc, fun hne => absurd hsw (hne d b imm).2⟩
  · obtain ⟨hlen, hnodup, hpc⟩ := accessEvents_nil s
    exact ⟨[], hevents.trans (List.append_nil _).symm, hlen, hnodup, hpc, fun _ => rfl⟩

/-- Settles O34. -/
theorem fillReadsTheBlockFromMemory : Obligations.FillReadsTheBlockFromMemory := by
  refine fun m c id => ⟨length_fillBlock m c id, fun i hi => ?_⟩
  simp [fillBlock, hi, memRead]

/-- Settles O36: the evicted row is what stands behind the inserted block. -/
theorem allocateEvictsTheLastAndInsertsAtTheHead : Obligations.AllocateEvictsTheLastAndInsertsAtTheHead := by
  intro m l a hw _
  have hrow := l.allocate_row m a hw
  refine ⟨fun kept last hfull hlen => ?full, fun hlen => ?room, fun q hq => l.allocate_row_ne m a hq⟩
  case full => rw [hrow, hfull, evictIfFull_full hlen, filledEntry]
  case room => rw [hrow, evictIfFull_of_ne hlen, filledEntry]

/-- Settles O39, by hit and miss: a promotion, an update and an allocation each replace that one row. -/
theorem onlyTheAddressedRowChanges : Obligations.OnlyTheAddressedRowChanges := by
  intro m l a v promotes q hq
  by_cases hit : Hits l a
  · rw [Level.load_of_hits m hit, Level.store_of_hits m v hit, Level.afterUpperMiss_of_hits m promotes hit]
    refine ⟨l.promote_row_ne _ hq, l.updateWord_row_ne _ _ v hq, ?_⟩
    cases promotes
    · rfl
    · exact l.promote_row_ne _ hq
  · rw [Level.load_of_not_hits m hit, Level.store_of_not_hits m v hit, Level.afterUpperMiss_of_not_hits m promotes hit]
    exact ⟨l.allocate_row_ne m a hq, l.allocate_row_ne m a hq, l.allocate_row_ne m a hq⟩

/-- Settles O41, by L2's hit and miss. -/
theorem upperMissFillsFromMemory : Obligations.UpperMissFillsFromMemory := by
  intro s l1 l2 a hc hmiss
  rw [State.load_of_upper_miss hc hmiss]
  refine ⟨fun hlower => ?miss, fun hlower => ?hit⟩
  case miss => rw [Level.afterUpperMiss_of_not_hits _ _ hlower]; exact ⟨rfl, rfl⟩
  case hit => rw [Level.afterUpperMiss_of_hits _ _ hlower]; exact ⟨rfl, rfl⟩

/-- Settles O42: L2 is left as it is, or one of its rows is reordered by a promotion. -/
theorem lowerHitKeepsItsEntries : Obligations.LowerHitKeepsItsEntries := by
  intro m promotes l a hw hit r
  rw [Level.afterUpperMiss_of_hits m promotes hit]
  cases promotes
  case false => exact .refl _
  case true => exact l.promote_row_perm _ (addressedRow_wf hw a).1 r

/-- Settles O43, by hit and miss of the single level. -/
theorem loadWithoutAndWithOneLevel : Obligations.LoadWithoutAndWithOneLevel := by
  intro s a
  refine ⟨fun hc => State.load_of_noCache hc a, fun l1 hc => ?_⟩
  rw [State.load_of_oneLevel hc]
  refine ⟨rfl, rfl, ?_⟩
  by_cases hit : Hits l1 a
  · rw [Level.load_of_hits _ hit]; exact .inl ⟨hit, rfl⟩
  · rw [Level.load_of_not_hits _ hit]; exact .inr ⟨hit, rfl⟩

/-- Settles O44, mode by mode. -/
theorem storeWritesThroughEveryLevel : Obligations.StoreWritesThroughEveryLevel := by
  intro s a v
  refine ⟨s.store_mem a v, fun hc => ?none, fun l1 hc => ?one, fun l1 l2 hc => ?two⟩
  case none => rw [State.store_of_noCache hc]; exact ⟨hc, rfl⟩
  case one => rw [State.store_of_oneLevel hc]; exact ⟨rfl, rfl⟩
  case two => rw [State.store_of_twoLevel hc]; exact ⟨rfl, rfl⟩

/-- Settles O45: the store keeps the invariant, so the load after it returns main memory's word. -/
theorem loadReturnsTheLastStore : Obligations.LoadReturnsTheLastStore := by
  intro s a b v hs
  rw [load_word (machineInv_store hs a v), s.store_word a b v hs.1]

/-- Settles O46: the entry's block begins below 8192. -/
theorem tagsAreBounded : Obligations.TagsAreBounded := by
  intro s l r e hs hl hr he
  obtain ⟨⟨hlegal, -, hrows⟩, -⟩ := hs.2 l hl
  obtain ⟨-, -, hentries⟩ := hrows r hr
  obtain ⟨-, hblock⟩ := hentries e he
  have ⟨_, _, hblocksize, _⟩ := hlegal
  rw [Nat.le_div_iff_mul_le (rowCount_pos _ hlegal), Nat.le_div_iff_mul_le hblocksize]
  have hle : e.tag * l.cfg.rowCount * l.cfg.blocksize ≤ (e.tag * l.cfg.rowCount + r) * l.cfg.blocksize :=
    Nat.mul_le_mul_right _ (Nat.le_add_right _ _)
  exact Nat.le_of_lt_succ (lt_of_le_of_lt hle hblock)

end Sys2Proof.Proofs
end

section
/-! PROOFS. Transparency of the caches (spec/20_memory.md R96, R100; spec/10_state.md section 7). -/

namespace Sys2Proof.Machine

/-! The view after each update. -/

@[simp] theorem State.setReg_view (s : State) (d : RegId) (v : Word) :
    (s.setReg d v).view = { s.view with regs := s.view.regs.set d v } := rfl

@[simp] theorem State.setPc_view (s : State) (p : Addr) : (s.setPc p).view = { s.view with pc := p } := rfl

theorem State.finish_view (s : State) (n : Word) :
    (s.finish n).view =
      if n = addrToWord s.pc then { s.view with halted := true } else { s.view with pc := wordToAddr n } := by
  unfold State.finish
  exact apply_ite State.view _ _ _

@[simp] theorem State.load_view (s : State) (a : Addr) : (s.load a).2.view = s.view := by
  simp [State.view]

@[simp] theorem State.store_view (s : State) (a : Addr) (v : Word) :
    (s.store a v).view = { s.view with mem := memWrite s.view.mem a.toNat v } := by
  simp [State.view]

/-! What a view determines. -/

section
variable {s s' : State} (h : s.view = s'.view)
include h

theorem reg_eq_of_view (r : RegId) : s.reg r = s'.reg r := congrArg (fun v : ProgramView => v.regs.get r) h
theorem pc_eq_of_view : s.pc = s'.pc := congrArg ProgramView.pc h
theorem word_eq_of_view (a : Addr) : s.word a = s'.word a := congrArg (fun v : ProgramView => memRead v.mem a.toNat) h
theorem undefFunc_eq_of_view : s.undefFunc = s'.undefFunc := congrArg ProgramView.undefFunc h
theorem halted_eq_of_view : s.halted = s'.halted := congrArg ProgramView.halted h

theorem fetch_eq_of_view : s.fetch = s'.fetch := by
  rw [State.fetch, State.fetchWord, pc_eq_of_view h, word_eq_of_view h]; rfl

theorem pcPlusOne_eq_of_view : s.pcPlusOne = s'.pcPlusOne := by
  rw [State.pcPlusOne, pc_eq_of_view h]; rfl

theorem effectiveAddr_eq_of_view (b : RegId) (imm : Imm7) : effectiveAddr s b imm = effectiveAddr s' b imm := by
  rw [effectiveAddr, reg_eq_of_view h]; rfl

theorem relativeTarget_eq_of_view (imm : Imm7) : relativeTarget s imm = relativeTarget s' imm := by
  rw [relativeTarget, pcPlusOne_eq_of_view h]; rfl

theorem finish_view_of_view (n : Word) : (s.finish n).view = (s'.finish n).view := by
  simp only [State.finish_view, h, pc_eq_of_view h]

theorem undefinedFunc_view : viewAfter (undefinedFunc s) = viewAfter (undefinedFunc s') := by
  cases hu : s'.undefFunc
  case nop =>
    rw [undefinedFunc_nop s' hu, undefinedFunc_nop s (undefFunc_eq_of_view h ▸ hu)]
    simp [viewAfter, h, pc_eq_of_view h]
  case refuse =>
    rw [undefinedFunc_refuse s' hu, undefinedFunc_refuse s (undefFunc_eq_of_view h ▸ hu)]

/-- An instruction reads the view only; lw's word is main memory's by coherence. -/
theorem exec_view (hs : MachineInv s) (hs' : MachineInv s') (i : Instr) :
    viewAfter (exec i s) = viewAfter (exec i s') := by
  have hreg := reg_eq_of_view h
  have hpc := pc_eq_of_view h
  cases i
  case add | sub | or | and | slt | addi | slti =>
    simp only [exec_add, exec_sub, exec_or, exec_and, exec_slt, exec_addi, exec_slti, viewAfter, State.setPc_view,
      State.setReg_view, h, hreg, hpc]
  case jr => simp only [exec_jr, viewAfter, finish_view_of_view h, hreg]
  case jeq =>
    simp only [exec_jeq, viewAfter, finish_view_of_view h, hreg, relativeTarget_eq_of_view h, pcPlusOne_eq_of_view h]
  case j => simp only [exec_j, viewAfter, finish_view_of_view h]
  case jal target =>
    have hlink : (s.setReg 7#3 s.pcPlusOne).view = (s'.setReg 7#3 s'.pcPlusOne).view := by
      rw [State.setReg_view, State.setReg_view, h, pcPlusOne_eq_of_view h]
    simp only [exec_jal, viewAfter, finish_view_of_view hlink]
  case lw d b imm =>
    simp only [exec_lw, viewAfter, State.setPc_view, State.setReg_view, State.load_view, load_word hs, load_word hs', h,
      hpc, effectiveAddr_eq_of_view h, word_eq_of_view h]
  case sw d b imm =>
    simp only [exec_sw, viewAfter, State.setPc_view, State.store_view, h, hreg, hpc, effectiveAddr_eq_of_view h]
  case undef5 | undef6 | undef7 | undef9 | undef10 | undef11 | undef12 | undef13 | undef14 | undef15 =>
    rw [exec_undef _ s rfl, exec_undef _ s' rfl, undefinedFunc_view h]

end

/-- The invariant holds legal levels only, and a hierarchy has at most two. -/
theorem cfg_legal_of_machineInv {s : State} (hs : MachineInv s) : s.cfg.Legal := by
  refine ⟨?count, fun c hc => ?legal⟩
  case count => cases hcache : s.cache <;> simp [State.cfg, hcache, Hierarchy.levels]
  case legal =>
    obtain ⟨l, hl, rfl⟩ := List.mem_map.mp hc
    obtain ⟨⟨hlegal, -⟩, -⟩ := hs.2 l hl
    exact hlegal

theorem step_view {s s' : State} (hs : MachineInv s) (hs' : MachineInv s') (h : s.view = s'.view) :
    viewAfter (step s) = viewAfter (step s') := by
  have hl := cfg_legal_of_machineInv hs
  have hl' := cfg_legal_of_machineInv hs'
  cases hh : s'.halted
  case true => rw [step_of_halted hl' hh, step_of_halted hl (halted_eq_of_view h ▸ hh), viewAfter, viewAfter, h]
  case false =>
    rw [step_of_running hl' hh, step_of_running hl (halted_eq_of_view h ▸ hh), fetch_eq_of_view h]
    exact exec_view h hs hs' s'.fetch

end Sys2Proof.Machine

namespace Sys2Proof.Proofs
open Sys2Proof.Machine

/-- Settles O51: under coherence a step is a function of the view. -/
theorem cachesAreTransparentToAStep : Obligations.CachesAreTransparentToAStep :=
  fun _ _ hs hs' h => step_view hs hs' h

/-- Settles O53: the fetch reads main memory, which the store has written. -/
theorem storedWordIsExecutedNext : Obligations.StoredWordIsExecutedNext := by
  intro s t r b imm hs hrun hfetch haddr hstep
  obtain ⟨hlegal, -⟩ := step_next_cases hstep
  have hexec := exec_of_step hrun hstep
  rw [hfetch, exec_sw, haddr] at hexec
  cases hexec
  rw [step_of_running (by simpa using hlegal) (by simpa using hrun), State.fetch, State.fetchWord, State.setPc_word,
    State.setPc_pc, s.store_word _ _ _ hs.1, if_pos rfl]

end Sys2Proof.Proofs
end

section
/-! PROOFS. Recency (spec/10_state.md R47; spec/20_memory.md R73 to R77, R82 to R88). -/

namespace Sys2Proof.Machine

/-! The accesses of a level, read off the event stream. -/

@[simp] theorem accessEvent_addr (s : State) (level : LevelId) (st : Status) (c : LevelConfig) (a : Addr) :
    (accessEvent s level st c a).addr = a := rfl

@[simp] theorem State.accesses_setMem (s : State) (m : Memory) (level : LevelId) :
    (s.setMem m).accesses level = s.accesses level := rfl

@[simp] theorem State.accesses_setCache (s : State) (h : Hierarchy) (level : LevelId) :
    (s.setCache h).accesses level = s.accesses level := rfl

@[simp] theorem State.accesses_emit_L1 (s u : State) (st : Status) (c : LevelConfig) (a : Addr) :
    (s.emit (accessEvent u .L1 st c a)).accesses .L1 = s.accesses .L1 ++ [a] := by
  simp [State.accesses, touches, accessEvent]

/-- An L2 hit that does not promote is no access (R86). -/
@[simp] theorem State.accesses_emit_L2 (s u : State) (st : Status) (c : LevelConfig) (a : Addr) :
    (s.emit (accessEvent u .L2 st c a)).accesses .L2 =
      if s.l2HitPromotes || st != .HIT then s.accesses .L2 ++ [a] else s.accesses .L2 := by
  have htouch : touches s.l2HitPromotes .L2 (accessEvent u .L2 st c a) = (s.l2HitPromotes || st != .HIT) := by
    cases s.l2HitPromotes <;> rfl
  cases h : s.l2HitPromotes || st != .HIT <;> simp [State.accesses, htouch, h]

theorem State.accesses_emit_other (s u : State) (st : Status) (c : LevelConfig) (a : Addr) {level level' : LevelId}
    (h : level' ≠ level) : (s.emit (accessEvent u level' st c a)).accesses level = s.accesses level := by
  simp [State.accesses, touches, accessEvent, h]

@[simp] theorem State.accesses_L2_emit_L1 (s u : State) (st : Status) (c : LevelConfig) (a : Addr) :
    (s.emit (accessEvent u .L1 st c a)).accesses .L2 = s.accesses .L2 := s.accesses_emit_other u st c a (by decide)

@[simp] theorem State.accesses_L1_emit_L2 (s u : State) (st : Status) (c : LevelConfig) (a : Addr) :
    (s.emit (accessEvent u .L2 st c a)).accesses .L1 = s.accesses .L1 := s.accesses_emit_other u st c a (by decide)

/-! The requests keep the order. -/

theorem lruInv_of_noCache {s : State} (hc : s.cache = .noCache) : LruInv s := by
  rw [LruInv, hc]
  trivial

theorem lruInv_of_oneLevel {s : State} {l1 : Level} (hc : s.cache = .oneLevel l1) :
    LruInv s ↔ LevelRecent l1 (s.accesses .L1) := by
  rw [LruInv, hc]

theorem lruInv_of_twoLevel {s : State} {l1 l2 : Level} (hc : s.cache = .twoLevel l1 l2) :
    LruInv s ↔ LevelRecent l1 (s.accesses .L1) ∧ LevelRecent l2 (s.accesses .L2) := by
  rw [LruInv, hc]

theorem lruInv_load {s : State} (hs : MachineInv s) (hr : LruInv s) (a : Addr) : LruInv (s.load a).2 := by
  cases hc : s.cache
  case noCache => rwa [State.load_of_noCache hc]
  case oneLevel l1 =>
    obtain ⟨-, h1, -⟩ := (machineInv_of_oneLevel hc).mp hs
    have r1 := (lruInv_of_oneLevel hc).mp hr
    rw [State.load_of_oneLevel hc, lruInv_of_oneLevel rfl]
    simpa using r1.load h1 s.mem a
  case twoLevel l1 l2 =>
    obtain ⟨-, ⟨h1, -⟩, h2, -⟩ := (machineInv_of_twoLevel hc).mp hs
    obtain ⟨r1, r2⟩ := (lruInv_of_twoLevel hc).mp hr
    by_cases hit : Hits l1 a
    · rw [State.load_of_upper_hit hc hit, lruInv_of_twoLevel rfl]
      exact ⟨by simpa using r1.load h1 s.mem a, by simpa using r2⟩
    · have r1' := r1.allocate h1 s.mem a (mt (hits_iff_probe l1 a).mpr hit)
      have r2' := r2.afterUpperMiss h2 s.mem s.l2HitPromotes a
      rw [State.load_of_upper_miss hc hit, lruInv_of_twoLevel rfl]
      exact ⟨by simpa using r1', by simpa using r2'⟩

theorem lruInv_store {s : State} (hs : MachineInv s) (hr : LruInv s) (a : Addr) (v : Word) : LruInv (s.store a v) := by
  cases hc : s.cache
  case noCache =>
    rw [State.store_of_noCache hc]
    exact lruInv_of_noCache hc
  case oneLevel l1 =>
    obtain ⟨-, h1, -⟩ := (machineInv_of_oneLevel hc).mp hs
    have r1 := (lruInv_of_oneLevel hc).mp hr
    rw [State.store_of_oneLevel hc, lruInv_of_oneLevel rfl]
    simpa using r1.store h1 (memWrite s.mem a.toNat v) a v
  case twoLevel l1 l2 =>
    obtain ⟨-, ⟨h1, -⟩, h2, -⟩ := (machineInv_of_twoLevel hc).mp hs
    obtain ⟨r1, r2⟩ := (lruInv_of_twoLevel hc).mp hr
    have r1' := r1.store h1 (memWrite s.mem a.toNat v) a v
    have r2' := r2.store h2 (memWrite s.mem a.toNat v) a v
    rw [State.store_of_twoLevel hc, lruInv_of_twoLevel rfl]
    exact ⟨by simpa using r1', by simpa using r2'⟩

theorem SameStorage.lruInv {s t : State} (h : SameStorage s t) (hs : LruInv s) : LruInv t := by
  obtain ⟨-, hcache, hevents, hpromotes, -⟩ := h
  have haccesses : ∀ level, t.accesses level = s.accesses level := fun level => by
    rw [State.accesses, hevents, hpromotes, State.accesses]
  rw [LruInv, hcache, haccesses, haccesses]
  exact hs

/-! A level by itself: any sequence of loads. -/

theorem foldl_load_recent {m : Memory} {l : Level} {past : List Addr} (as : List Addr) (hg : LevelGood m l)
    (hr : LevelRecent l past) :
    LevelGood m (as.foldl (fun l a => (l.load m a).1) l) ∧
      LevelRecent (as.foldl (fun l a => (l.load m a).1) l) (past ++ as) := by
  induction as generalizing l past with
  | nil => simpa using ⟨hg, hr⟩
  | cons a as ih => simpa using ih (l.load_good m a hg) (hr.load hg.1 m a)

theorem foldl_load_cfg (m : Memory) (as : List Addr) (l : Level) :
    (as.foldl (fun l a => (l.load m a).1) l).cfg = l.cfg := by
  induction as generalizing l with
  | nil => rfl
  | cons a as ih => rw [List.foldl_cons, ih, Level.load_cfg]

theorem emptyLevel_row (c : LevelConfig) (r : Nat) : (emptyLevel c).row r = [] := by
  rw [Level.row, emptyLevel, List.getD_eq_getElem?_getD, List.getElem?_replicate]
  split <;> rfl

theorem emptyLevel_good (m : Memory) {c : LevelConfig} (h : c.Legal) : LevelGood m (emptyLevel c) := by
  rw [LevelGood, level_good_iff]
  refine ⟨h, List.length_replicate, fun r _ => ?_⟩
  rw [emptyLevel_row]
  exact ⟨Nat.zero_le _, List.nodup_nil, by simp⟩

theorem emptyLevel_recent (c : LevelConfig) : LevelRecent (emptyLevel c) [] := by
  intro r _
  rw [emptyLevel_row]
  simp [recentTags]

end Sys2Proof.Machine

namespace Sys2Proof.Proofs
open Sys2Proof.Machine

/-- Settles O59: with `MachineInv` beside it the order is kept by each request, mode by mode. -/
theorem everyStepKeepsTheLruOrder : Obligations.EveryStepKeepsTheLruOrder :=
  fun _ _ hs hr h => step_keeps (fun hu => hu.lruInv) (fun a hi => lruInv_load hs hi a)
    (fun a v hi => lruInv_store hs hi a v) hr h

/-- Settles O47, by induction on the loads, from the empty level. -/
theorem rowsHoldTheMostRecentTags : Obligations.RowsHoldTheMostRecentTags := by
  intro m c as r hc hr
  have hcfg := foldl_load_cfg m as (emptyLevel c)
  obtain ⟨⟨⟨-, hlen, -⟩, -⟩, hrecent⟩ := foldl_load_recent as (emptyLevel_good m hc) (emptyLevel_recent c)
  have hrow := hrecent r (by rw [hlen, hcfg]; exact hr)
  rw [hcfg] at hrow
  exact hrow

end Sys2Proof.Proofs
end

section
/-! PROOFS. The start of a run and the launch (spec/10_state.md R52; spec/70_reset_and_hazards.md R270 to R276). -/

namespace Sys2Proof.Machine

/-! The start state. -/

theorem emptyHierarchy_levels {ls : List LevelConfig} (h : ls.length ≤ 2) :
    (emptyHierarchy ls).levels = ls.map emptyLevel := by
  match ls, h with
  | [], _ => rfl
  | [_], _ => rfl
  | [_, _], _ => rfl

theorem startState_cfg {cfg : Config} (h : cfg.Legal) (image : List Word) : (startState cfg image).cfg = cfg := by
  have hcfg : Level.cfg ∘ emptyLevel = id := rfl
  simp [State.cfg, startState, emptyHierarchy_levels h.1, hcfg]

theorem startState_reg (cfg : Config) (image : List Word) (r : RegId) : (startState cfg image).reg r = 0#16 := by
  rcases regId_cases r with rfl | rfl | rfl | rfl | rfl | rfl | rfl | rfl <;> rfl

theorem startState_memRead (cfg : Config) (image : List Word) {k : Nat} (hk : k < memSize) :
    memRead (startState cfg image).mem k = image.getD k 0#16 := by
  rw [memRead, Nat.mod_eq_of_lt hk]
  exact lookup_memoryOfWords 0 image k

theorem machineInv_startState {cfg : Config} {image : List Word} (h : cfg.Legal) (hlen : image.length ≤ 8192) :
    MachineInv (startState cfg image) := by
  refine ⟨memoryOfWords_wf 0 image (by simpa using hlen), fun l hl => ?_⟩
  rw [startState, emptyHierarchy_levels h.1] at hl
  obtain ⟨c, hc, rfl⟩ := List.mem_map.mp hl
  exact emptyLevel_good _ (h.2 c hc)

theorem lruInv_startState (cfg : Config) (image : List Word) : LruInv (startState cfg image) := by
  obtain ⟨levels, promotes, undef⟩ := cfg
  match levels with
  | [] => exact trivial
  | [c] => exact emptyLevel_recent c
  | c :: c' :: _ => exact ⟨emptyLevel_recent c, emptyLevel_recent c'⟩

/-! Runs of any length. -/

theorem run_of_next {M : Host.Core} {s t : M.State} (h : M.step s = .next t) (k : Nat) :
    M.run (k + 1) s = M.run k t := by
  simp only [Host.Core.run, h]

theorem run_of_refused {M : Host.Core} {s : M.State} {r : M.Refusal} (h : M.step s = .refused r) (k : Nat) :
    M.run (k + 1) s = .refused r := by
  simp only [Host.Core.run, h]

/-- A run ends where a step has no next state. -/
theorem run_view_of_stop {s : State} (h : viewAfter (step s) = none) (k : Nat) :
    viewAfter (Host.Core.run core (k + 1) s) = none := by
  cases hstep : step s
  case next t => rw [hstep] at h; cases h
  case fault r => cases r
  case refused r => exact congrArg viewAfter (run_of_refused (M := core) hstep k)

theorem next_of_viewAfter {o : Host.Outcome State Fault Refusal} {v : ProgramView} (h : viewAfter o = some v) :
    ∃ t, o = .next t ∧ t.view = v := by
  cases o
  case next t => exact ⟨t, rfl, Option.some.inj h⟩
  case fault r => cases h
  case refused r => cases h

theorem run_view {s s' : State} (k : Nat) (hs : MachineInv s) (hs' : MachineInv s') (h : s.view = s'.view) :
    viewAfter (Host.Core.run core k s) = viewAfter (Host.Core.run core k s') := by
  induction k generalizing s s' with
  | zero => exact congrArg some h
  | succ k ih =>
    have hstep := step_view hs hs' h
    cases hv : viewAfter (step s')
    case none => rw [run_view_of_stop hv, run_view_of_stop (hstep.trans hv)]
    case some v =>
      obtain ⟨t', ht', hview'⟩ := next_of_viewAfter hv
      obtain ⟨t, ht, hview⟩ := next_of_viewAfter (hstep.trans hv)
      calc viewAfter (Host.Core.run core (k + 1) s)
        _ = viewAfter (Host.Core.run core k t) := congrArg viewAfter (run_of_next (M := core) ht k)
        _ = viewAfter (Host.Core.run core k t') :=
          ih (step_keeps_machineInv hs ht) (step_keeps_machineInv hs' ht') (hview.trans hview'.symm)
        _ = viewAfter (Host.Core.run core (k + 1) s') := (congrArg viewAfter (run_of_next (M := core) ht' k)).symm

/-! The words of an image (R272, R273). -/

/-- The bits of the number read from a line: the last bit written is bit 0. -/
theorem testBit_foldl_bits (bits : List Bool) (k : Nat) :
    (bits.foldl (fun n (b : Bool) => 2 * n + b.toNat) 0).testBit k = bits.reverse.getD k false := by
  induction bits using List.reverseRecOn generalizing k with
  | nil => simp
  | append_singleton bits b ih =>
    rw [List.foldl_append, List.foldl_cons, List.foldl_nil, List.reverse_append, List.reverse_singleton,
      List.singleton_append, ← Nat.bit_val]
    cases k with
    | zero => simp
    | succ k => rw [Nat.testBit_bit_succ, ih, List.getD_cons_succ]

theorem wordOfBits_some {bits : List Bool} {w : Word} (h : wordOfBits bits = some w) :
    bits.length = 16 ∧ ∀ i < 16, bits[i]? = some (w.getLsbD (15 - i)) := by
  unfold wordOfBits at h
  split at h
  case isFalse => cases h
  case isTrue hlen =>
    obtain rfl := Option.some.inj h
    refine ⟨hlen, fun i hi => ?_⟩
    have hrev : bits.reverse[15 - i]? = bits[i]? := by
      rw [List.getElem?_reverse (by omega)]
      congr 1
      omega
    have hsome : bits[i]? = some bits[i] := List.getElem?_eq_getElem (by omega)
    rw [BitVec.getLsbD_ofNat, testBit_foldl_bits, List.getD_eq_getElem?_getD, hrev, hsome]
    simp
    omega

theorem wordOfBits_of_length {bits : List Bool} (h : bits.length = 16) : ∃ w, wordOfBits bits = some w :=
  ⟨_, if_pos h⟩

theorem wordsOfLines_cons_ok_iff {k : Nat} {line : ImageLine} {rest : List ImageLine} {ws : List Word} :
    wordsOfLines k (line :: rest) = .ok ws ↔
      line.addr < memSize ∧ line.addr = k ∧ ∃ w ws', wordOfBits line.bits = some w ∧
        wordsOfLines (k + 1) rest = .ok ws' ∧ ws = w :: ws' := by
  rw [wordsOfLines]
  split_ifs with hover hseq
  · simp [Nat.not_lt.mpr hover]
  · simp [hseq]
  · have haddr := not_not.mp hseq
    cases hw : wordOfBits line.bits
    case none => simp
    case some w =>
      cases hrest : wordsOfLines (k + 1) rest
      case error e => simp
      case ok ws' => simp [haddr, haddr ▸ Nat.not_le.mp hover, eq_comm]

/-- What it takes for line `j` of an image loaded from address `k` to give a word. -/
theorem wordsOfLines_ok {k : Nat} {lines : List ImageLine} {ws : List Word} (h : wordsOfLines k lines = .ok ws) :
    ws.length = lines.length ∧ ∀ (j : Nat) (line : ImageLine), lines[j]? = some line →
      line.addr = k + j ∧ k + j < memSize ∧ wordOfBits line.bits = some (ws.getD j 0#16) := by
  induction lines generalizing k ws with
  | nil => 
    cases h
    simp
  | cons line rest ih =>
    obtain ⟨hlt, haddr, w, ws', hw, hrest, rfl⟩ := wordsOfLines_cons_ok_iff.mp h
    obtain ⟨hlen, hlines⟩ := ih hrest
    refine ⟨by simpa using hlen, fun j l hj => ?_⟩
    cases j with
    | zero => 
      obtain rfl := Option.some.inj hj
      exact ⟨haddr, haddr ▸ hlt, hw⟩
    | succ j => 
      have hl := hlines j l (by simpa using hj)
      rwa [Nat.add_right_comm, Nat.add_assoc] at hl

theorem wordsOfLines_exists {k : Nat} {lines : List ImageLine}
    (h : ∀ (j : Nat) (line : ImageLine), lines[j]? = some line →
      line.addr = k + j ∧ k + j < memSize ∧ line.bits.length = 16) : ∃ ws, wordsOfLines k lines = .ok ws := by
  induction lines generalizing k with
  | nil => exact ⟨[], rfl⟩
  | cons line rest ih =>
    obtain ⟨haddr, hlt, hbits⟩ := h 0 line rfl
    obtain ⟨w, hw⟩ := wordOfBits_of_length hbits
    obtain ⟨ws, hws⟩ := ih (k := k + 1) fun j l hj => by
      have hl := h (j + 1) l (by simpa using hj)
      rwa [← Nat.add_assoc, Nat.add_right_comm] at hl
    exact ⟨w :: ws, wordsOfLines_cons_ok_iff.mpr ⟨haddr ▸ hlt, haddr, w, ws, hw, hws, rfl⟩⟩

theorem imageWords_of_ok {lines : List ImageLine} {ws : List Word} (h : wordsOfLines 0 lines = .ok ws) :
    ImageWords lines ws := by
  obtain ⟨hlen, hlines⟩ := wordsOfLines_ok h
  exact ⟨hlen, fun k line hk => (wordOfBits_some (hlines k line hk).2.2).2⟩

theorem lines_length_of_ok {lines : List ImageLine} {ws : List Word} (h : wordsOfLines 0 lines = .ok ws) :
    lines.length ≤ 8192 := by
  obtain rfl | hne := eq_or_ne lines []
  · simp
  · have hpos := List.length_pos_of_ne_nil hne
    obtain ⟨-, hlt, -⟩ := (wordsOfLines_ok h).2 (lines.length - 1) _ (List.getElem?_eq_getElem (by omega))
    rw [memSize] at hlt
    omega

/-! The launch. -/

theorem launch_ok_iff {args : Option (List Nat)} {lines : List ImageLine} {p : Bool} {u : UndefFunc} {s : State} :
    launch args lines p u = .ok s ↔
      ∃ levels image, levelsOfArgs args = .ok levels ∧ Config.Legal ⟨levels, p, u⟩ ∧ wordsOfLines 0 lines = .ok image ∧
        s = startState ⟨levels, p, u⟩ image := by
  rw [launch]
  cases hargs : levelsOfArgs args
  case error e => simp
  case ok levels =>
    dsimp only
    split_ifs with hl
    case neg => simp [hl]
    case pos =>
      cases hwords : wordsOfLines 0 lines
      case error e => simp
      case ok image =>
        refine ⟨fun h => ⟨levels, image, rfl, hl, rfl, (Except.ok.inj h).symm⟩, ?_⟩
        rintro ⟨_, _, ⟨⟩, -, ⟨⟩, rfl⟩
        rfl

theorem launch_of_imageWf {args : Option (List Nat)} {lines : List ImageLine} {p : Bool} {u : UndefFunc}
    {levels : List LevelConfig} (hargs : levelsOfArgs args = .ok levels) (hl : Config.Legal ⟨levels, p, u⟩)
    (hwf : ImageWf lines) :
    ∃ words, ImageWords lines words ∧ launch args lines p u = .ok (startState ⟨levels, p, u⟩ words) := by
  obtain ⟨hlen, hlines⟩ := hwf
  obtain ⟨words, hwords⟩ := wordsOfLines_exists (k := 0) fun j line hj => by
    obtain ⟨haddr, hbits⟩ := hlines j line hj
    obtain ⟨hlt, -⟩ := List.getElem?_eq_some_iff.mp hj
    exact ⟨by omega, by omega, hbits⟩
  exact ⟨words, imageWords_of_ok hwords, launch_ok_iff.mpr ⟨levels, words, hargs, hl, hwords, rfl⟩⟩

theorem launch_cfg {args : Option (List Nat)} {lines : List ImageLine} {p : Bool} {u : UndefFunc} {s : State}
    {levels : List LevelConfig} (hargs : levelsOfArgs args = .ok levels) (h : launch args lines p u = .ok s) :
    s.cfg = ⟨levels, p, u⟩ := by
  obtain ⟨levels', image, hargs', hl, -, rfl⟩ := launch_ok_iff.mp h
  obtain rfl : levels' = levels := Except.ok.inj (hargs'.symm.trans hargs)
  exact startState_cfg hl image

theorem levelsOfArgs_of_count {args : List Nat} (h3 : args.length ≠ 3) (h6 : args.length ≠ 6) :
    levelsOfArgs (some args) = .error .cacheArgumentCount := by
  rw [levelsOfArgs]
  · rintro x y z rfl
    exact h3 rfl
  · rintro x y z x' y' z' rfl
    exact h6 rfl

end Sys2Proof.Machine

namespace Sys2Proof.Proofs
open Sys2Proof.Machine

/-- Settles O49: every row is empty, and the image is loaded in canonical form. -/
theorem everyStartKeepsTheInvariant : Obligations.EveryStartKeepsTheInvariant :=
  fun _ _ hl hlen => machineInv_startState hl hlen

/-- Settles O48: reset is the start of a run without levels and with an empty image. -/
theorem resetKeepsTheInvariant : Obligations.ResetKeepsTheInvariant :=
  machineInv_startState (cfg := ⟨[], false, .nop⟩) (image := []) ⟨Nat.zero_le _, List.forall_mem_nil _⟩ (Nat.zero_le _)

/-- Settles O58. -/
theorem everyStartKeepsTheLruOrder : Obligations.EveryStartKeepsTheLruOrder :=
  fun cfg image _ _ => lruInv_startState cfg image

/-- Settles O52, by induction on the steps from two start states of one view. -/
theorem cachesAreTransparentToARun : Obligations.CachesAreTransparentToARun := by
  intro cfg cfg' image k hl hl' hundef hlen
  refine run_view k (machineInv_startState hl hlen) (machineInv_startState hl' hlen) ?_
  simp [State.view, startState, hundef]

/-- Settles O54: the start state field by field, and the launch by its inversion. -/
theorem startOfARun : Obligations.StartOfARun := by
  refine ⟨fun cfg image hl _ => ?start, fun args lines p u s h => ?launch⟩
  case start =>
    refine ⟨startState_reg cfg image, rfl, rfl, rfl, startState_cfg hl image,
      fun a => startState_memRead cfg image a.isLt, fun l hmem => ?_⟩
    rw [startState, emptyHierarchy_levels hl.1] at hmem
    obtain ⟨c, -, rfl⟩ := List.mem_map.mp hmem
    rfl
  case launch =>
    obtain ⟨levels, image, -, hl, hwords, rfl⟩ := launch_ok_iff.mp h
    have himage := imageWords_of_ok hwords
    exact ⟨_, image, hl, himage.1 ▸ lines_length_of_ok hwords, himage, rfl⟩

/-- Settles O55: a launch that has a run has read line `k` at address `k`, in range and with sixteen bits. -/
theorem badImageHasNoRun : Obligations.BadImageHasNoRun := by
  intro args lines p u k line hk hbad s h
  obtain ⟨_, _, -, -, hwords, -⟩ := launch_ok_iff.mp h
  obtain ⟨haddr, hlt, hw⟩ := (wordsOfLines_ok hwords).2 k line hk
  obtain ⟨hbits, -⟩ := wordOfBits_some hw
  rw [memSize] at hlt
  omega

/-- Settles O56: the argument gives the levels, which a run keeps as its configuration. -/
theorem cacheArgumentSelectsTheMode : Obligations.CacheArgumentSelectsTheMode := by
  intro args lines p u
  refine ⟨fun ⟨h3, h6⟩ => ?count, fun s h => launch_cfg rfl h, ?one, ?two,
    fun hwf => ⟨launch_of_imageWf rfl ⟨?_, ?_⟩ hwf, ?runOne, ?runTwo⟩⟩
  case count => rw [launch, levelsOfArgs_of_count h3 h6]
  case one =>
    rintro s x y z rfl h
    exact launch_cfg rfl h
  case two =>
    rintro s x y z x' y' z' rfl h
    exact launch_cfg rfl h
  case runOne =>
    rintro x y z rfl hl
    exact launch_of_imageWf rfl ⟨by simp, List.forall_mem_singleton.mpr hl⟩ hwf
  case runTwo =>
    rintro x y z x' y' z' rfl hl hl'
    exact launch_of_imageWf rfl ⟨by simp, List.forall_mem_cons.mpr ⟨hl, List.forall_mem_singleton.mpr hl'⟩⟩ hwf
  · simp
  · exact List.forall_mem_nil _

/-- Settles O57: word `k` of the image is loaded at address `k`. -/
theorem imageLinesAreMemoryWords : Obligations.ImageLinesAreMemoryWords := by
  refine fun args lines p u => ⟨fun s h => ?run, fun levels hargs hl hwf => launch_of_imageWf hargs hl hwf⟩
  obtain ⟨levels, image, -, -, hwords, rfl⟩ := launch_ok_iff.mp h
  refine ⟨lines_length_of_ok hwords, fun k line hk i hi => ?_⟩
  obtain ⟨-, hlt, hw⟩ := (wordsOfLines_ok hwords).2 k line hk
  rw [startState_memRead _ _ (by omega)]
  exact (wordOfBits_some hw).2 i hi

end Sys2Proof.Proofs
end

section
/-! PROOFS. Each instruction's effect (spec/40_step.md R155, R156, R159; spec/41_register_form.md R175, R177;
spec/42_immediate_form.md R190 to R194; spec/43_jump_form.md R220, R222). -/

namespace Sys2Proof.Machine

/-! The end of a transfer, target reduced or not. -/

theorem State.finish_pc (s : State) (n : Word) : (s.finish n).pc = wordToAddr n := by
  obtain ⟨rfl, h⟩ | ⟨-, h⟩ := s.finish_eq n
  · rw [h, State.setHalted_pc, wordToAddr_addrToWord]
  · rw [h, State.setPc_pc]

theorem State.finish_halted (s : State) (n : Word) :
    (s.finish n).halted = (s.halted || n == addrToWord s.pc) := by
  obtain ⟨hn, h⟩ | ⟨hn, h⟩ := s.finish_eq n
  · rw [h, hn]; simp
  · simp [h, hn]

/-- A transfer reaches nothing but `pc` and the run state. -/
theorem finish_frame (s : State) (n : Word) :
    SameRegs s (s.finish n) ∧ SameMemory s (s.finish n) ∧ SameController s (s.finish n) :=
  ⟨fun r => s.finish_reg n r, fun a => s.finish_word n a, s.finish_cache n, s.finish_events n, s.finish_cfg n⟩

theorem finish_transfers (s : State) (a : Addr) : Transfers s (s.finish (addrToWord a)) a :=
  ⟨s.finish_addr_pc a, s.finish_addr_halted a⟩

theorem goesOn_setPc (s : State) : GoesOn s (s.setPc (s.pc + 1#13)) := ⟨BitVec.toNat_add s.pc 1#13, rfl⟩

/-- The end of an instruction that only goes on. -/
theorem setPc_frame (s : State) :
    SameRegs s (s.setPc (s.pc + 1#13)) ∧ SameMemory s (s.setPc (s.pc + 1#13)) ∧
      SameController s (s.setPc (s.pc + 1#13)) ∧ GoesOn s (s.setPc (s.pc + 1#13)) :=
  ⟨fun _ => rfl, fun _ => rfl, ⟨rfl, rfl, rfl⟩, goesOn_setPc s⟩

/-! The numbers computed. -/

/-- A word plus a signed word, as a number (R14). -/
theorem word_add_signedValue (x y : Word) : ((x + y).toNat : Int) = (x.toNat + signedValue y) % 65536 := by
  rw [BitVec.toNat_add, signedValue]
  split <;> omega

theorem wordToAddr_eq_ofInt (w : Word) : wordToAddr w = BitVec.ofInt 13 (signedValue w) := by
  rw [← toInt_eq_signedValue, ← BitVec.signExtend, BitVec.signExtend_eq_setWidth_of_le _ (by decide), wordToAddr]

/-- The reduced target of a taken jeq, as a number (R194). -/
theorem relativeTarget_ofInt (s : State) (imm : Imm7) :
    wordToAddr (relativeTarget s imm) = BitVec.ofInt 13 (s.pc.toNat + 1 + signedValue (sext16 imm)) := by
  rw [relativeTarget_addr, wordToAddr_eq_ofInt, BitVec.ofInt_add, BitVec.ofInt_add]
  simp

/-- A signed field of -1 is the only one that leads back from `pc + 1`, reduced or not (R159). -/
theorem sext16_eq_neg_one_iff (imm : Imm7) :
    (1#16 + sext16 imm = 0#16 ↔ imm = 0x7F#7) ∧ (1#13 + wordToAddr (sext16 imm) = 0#13 ↔ imm = 0x7F#7) := by
  revert imm; decide

theorem relativeTarget_eq_pc_iff (s : State) (imm : Imm7) :
    relativeTarget s imm = addrToWord s.pc ↔ imm = 0x7F#7 := by
  rw [relativeTarget, State.pcPlusOne, BitVec.add_assoc, ← (sext16_eq_neg_one_iff imm).1]
  exact add_eq_left

theorem relativeTarget_addr_eq_pc_iff (s : State) (imm : Imm7) :
    wordToAddr (relativeTarget s imm) = s.pc ↔ imm = 0x7F#7 := by
  rw [relativeTarget_addr, BitVec.add_assoc, ← (sext16_eq_neg_one_iff imm).2]
  exact add_eq_left

theorem State.pcPlusOne_toNat (s : State) : s.pcPlusOne.toNat = s.pc.toNat + 1 := by
  have hpc := s.pc.isLt
  rw [State.pcPlusOne, BitVec.toNat_add, addrToWord_toNat]
  exact Nat.mod_eq_of_lt (by simp; omega)

/-! The instructions that halt (R159). -/

theorem finish_halted_iff {s : State} (hrun : s.halted = false) (n : Word) :
    (s.finish n).halted = true ↔ n = addrToWord s.pc := by
  rw [State.finish_halted, hrun, Bool.false_or, beq_iff_eq]

theorem jeq_halts_iff {s : State} (hrun : s.halted = false) (a b : RegId) (imm : Imm7) :
    (s.finish (if s.reg a = s.reg b then relativeTarget s imm else s.pcPlusOne)).halted = true ↔
      s.reg a = s.reg b ∧ imm = 0x7F#7 := by
  rw [finish_halted_iff hrun]
  split
  case isTrue h => rw [relativeTarget_eq_pc_iff]; simp [h]
  case isFalse h => simp [h, s.pcPlusOne_ne]

theorem exec_halted_iff {i : Instr} {s t : State} (hrun : s.halted = false) (h : exec i s = .next t) :
    t.halted = true ↔ haltsIn s i := by
  cases i
  case add | sub | or | and | slt | addi | slti | lw | sw =>
    simp only [exec_add, exec_sub, exec_or, exec_and, exec_slt, exec_addi, exec_slti, exec_lw, exec_sw] at h
    cases h
    simp [haltsIn, hrun]
  case jr a _ =>
    rw [exec_jr] at h
    cases h
    rw [finish_halted_iff hrun, addrToWord_inj, ← BitVec.toNat_inj, wordToAddr_toNat, haltsIn]
  case j target =>
    rw [exec_j] at h
    cases h
    rw [finish_halted_iff hrun, addrToWord_inj, haltsIn]
  case jal target =>
    rw [exec_jal] at h
    cases h
    rw [finish_halted_iff (by exact hrun), addrToWord_inj, State.setReg_pc, haltsIn]
  case jeq a b imm =>
    rw [exec_jeq] at h
    cases h
    exact jeq_halts_iff hrun a b imm
  case undef5 | undef6 | undef7 | undef9 | undef10 | undef11 | undef12 | undef13 | undef14 | undef15 =>
    rw [exec_undef _ s rfl] at h
    rw [undefinedFunc_next h]
    simp [haltsIn, hrun]

theorem finish_pc_of_halted {s : State} (hrun : s.halted = false) {n : Word} (h : (s.finish n).halted = true) :
    (s.finish n).pc = s.pc := by
  rw [State.finish_pc, (finish_halted_iff hrun n).mp h, wordToAddr_addrToWord]

/-- A step that halts ends where it began (R156). -/
theorem exec_pc_of_halted {i : Instr} {s t : State} (hrun : s.halted = false) (h : exec i s = .next t)
    (hh : t.halted = true) : t.pc = s.pc := by
  cases i
  case jr | j | jeq =>
    simp only [exec_jr, exec_j, exec_jeq] at h
    cases h
    exact finish_pc_of_halted hrun hh
  case jal target =>
    rw [exec_jal] at h
    cases h
    exact finish_pc_of_halted (s := s.setReg 7#3 s.pcPlusOne) hrun hh
  all_goals exact ((exec_halted_iff hrun h).mp hh).elim

/-! The register an instruction writes (R32). -/

theorem exec_reg_of_ne_destination {i : Instr} {s t : State} {r : RegId} (h : exec i s = .next t)
    (hr : destination i ≠ some r) : t.reg r = s.reg r := by
  cases i
  case add d _ _ | sub d _ _ | or d _ _ | and d _ _ | slt d _ _ | addi d _ _ | slti d _ _ | lw d _ _ =>
    have hne : r ≠ d := fun heq => hr (congrArg some heq.symm)
    simp only [exec_add, exec_sub, exec_or, exec_and, exec_slt, exec_addi, exec_slti, exec_lw] at h
    cases h
    simp [hne]
  case jal =>
    have hne : r ≠ 7#3 := fun heq => hr (congrArg some heq.symm)
    rw [exec_jal] at h
    cases h
    simp [hne]
  case jr | j | jeq | sw =>
    simp only [exec_jr, exec_j, exec_jeq, exec_sw] at h
    cases h
    simp
  case undef5 | undef6 | undef7 | undef9 | undef10 | undef11 | undef12 | undef13 | undef14 | undef15 =>
    rw [exec_undef _ s rfl] at h
    rw [undefinedFunc_next h, State.setPc_reg]

end Sys2Proof.Machine

namespace Sys2Proof.Proofs
open Sys2Proof.Machine

/-- Settles O13, instruction by instruction: only a transfer's halt test can succeed. -/
theorem onlySelfTransfersHalt : Obligations.OnlySelfTransfersHalt := by
  intro s t hrun h
  have hexec := exec_of_step hrun h
  exact ⟨exec_halted_iff hrun hexec, exec_pc_of_halted hrun hexec⟩

/-- Settles O14: a halted machine changes nothing, and an instruction its destination alone. -/
theorem onlyTheDestinationRegisterChanges : Obligations.OnlyTheDestinationRegisterChanges := by
  intro s t r h hchange
  obtain ⟨-, ⟨-, rfl⟩ | ⟨-, hexec⟩⟩ := step_next_cases h
  · exact absurd rfl hchange
  · by_contra hne
    exact hchange (exec_reg_of_ne_destination hexec hne)

/-- Settles O24: reducing the register's value modulo 8192 keeps its low thirteen bits. -/
theorem jrGoesToTheRegister : Obligations.JrGoesToTheRegister := by
  intro a ignored s
  have htarget : BitVec.ofNat 13 ((s.reg a).toNat % memSize) = wordToAddr (s.reg a) := by
    rw [← wordToAddr_toNat, BitVec.ofNat_toNat, BitVec.setWidth_eq]
  obtain ⟨hregs, hmem, hcontroller⟩ := finish_frame s (addrToWord (wordToAddr (s.reg a)))
  rw [htarget]
  exact ⟨_, exec_jr a ignored s, hregs, hmem, hcontroller, finish_transfers s _⟩

/-- Settles O25: the ten words share one meaning, which the parameter decides. -/
theorem undefinedFuncDoesNothing : Obligations.UndefinedFuncDoesNothing := by
  intro d a b s i hi
  have hkind : i.kind = .UNDEF := by
    fin_cases hi <;> rfl
  rw [exec_undef i s hkind]
  exact ⟨fun hnop => ⟨_, undefinedFunc_nop s hnop, setPc_frame s⟩, undefinedFunc_refuse s⟩

/-- Settles O26: the word's sum is the integers' sum modulo 65536. -/
theorem addiAddsTheSignedImmediate : Obligations.AddiAddsTheSignedImmediate := by
  intro t s imm st
  refine ⟨_, exec_addi t s imm st, ?value, setReg_setPc_frame st t _⟩
  rw [State.setPc_reg, State.setReg_reg_dst]
  split
  case isTrue => rfl
  case isFalse => exact word_add_signedValue _ _

/-- Settles O27: the model compares by `BitVec.toInt`, which is the two's-complement reading. -/
theorem sltiComparesSigned : Obligations.SltiComparesSigned := by
  intro t s imm st
  refine ⟨_, exec_slti t s imm st, ?value, setReg_setPc_frame st t _⟩
  rw [State.setPc_reg, State.setReg_reg_dst]
  split
  case isTrue ht => simp [ht]
  case isFalse ht => simp [ht, signedLess_toNat]

/-- Settles O28: 8192 divides 65536, so the sum's own wrap does not show. -/
theorem effectiveAddressWraps : Obligations.EffectiveAddressWraps := by
  intro s imm st
  have hsum := word_add_signedValue (st.reg s) (sext16 imm)
  rw [effectiveAddr, wordToAddr_toNat, memSize]
  omega

/-- Settles O29: under the invariant the load's word is main memory's, and the load leaves the rest of the state. -/
theorem lwLoadsTheMemoryWord : Obligations.LwLoadsTheMemoryWord := by
  intro t s imm st
  refine ⟨_, exec_lw t s imm st, rfl, rfl, fun hinv => ?value, fun r hr => ?regs, fun a => ?memory, ?cfg, ?pc⟩
  case value => rw [State.setPc_reg, State.setReg_reg_dst, load_word hinv]
  case regs => rw [State.setPc_reg, State.setReg_reg_ne _ t r _ hr, State.load_reg]
  case memory => rw [State.setPc_word, State.setReg_word, State.load_word]
  case cfg => rw [State.setPc_cfg, State.setReg_cfg, State.load_cfg]
  case pc => exact ⟨BitVec.toNat_add st.pc 1#13, st.load_halted _⟩

/-- Settles O30: the store is the step's only write, and it leaves registers, configuration and the run state. -/
theorem swStoresTheRegister : Obligations.SwStoresTheRegister := by
  intro t s imm st
  refine ⟨_, exec_sw t s imm st, rfl, rfl, fun hwf a => ?memory, fun r => ?regs, ?cfg, ?pc⟩
  case memory => rw [State.setPc_word, st.store_word _ a _ hwf]
  case regs => rw [State.setPc_reg, State.store_reg]
  case cfg => rw [State.setPc_cfg, State.store_cfg]
  case pc => exact ⟨BitVec.toNat_add st.pc 1#13, st.store_halted _ _⟩

/-- Settles O31: the unreduced and the reduced target are the instruction's own for the same field, -1. -/
theorem jeqBranchesOnEquality : Obligations.JeqBranchesOnEquality := by
  intro a b imm s
  obtain ⟨hregs, hmem, hcontroller⟩ :=
    finish_frame s (if s.reg a = s.reg b then relativeTarget s imm else s.pcPlusOne)
  refine ⟨_, exec_jeq a b imm s, hregs, hmem, hcontroller, ?_⟩
  split
  case isTrue =>
    rw [← relativeTarget_ofInt]
    refine ⟨State.finish_pc _ _, ?_⟩
    rw [State.finish_halted, Bool.eq_iff_iff]
    simp [relativeTarget_eq_pc_iff, relativeTarget_addr_eq_pc_iff]
  case isFalse =>
    rw [← State.advance, State.advance_eq]
    exact goesOn_setPc s

/-- Settles O32. -/
theorem jGoesToTheAddress : Obligations.JGoesToTheAddress := by
  intro target s
  obtain ⟨hregs, hmem, hcontroller⟩ := finish_frame s (addrToWord target)
  exact ⟨_, exec_j target s, hregs, hmem, hcontroller, finish_transfers s target⟩

/-- Settles O33: the link is written before the halt test, which then sees the same `pc`. -/
theorem jalLinksAndGoes : Obligations.JalLinksAndGoes := by
  intro target s
  obtain ⟨hregs, hmem, hcontroller⟩ := finish_frame (s.setReg 7#3 s.pcPlusOne) (addrToWord target)
  refine ⟨_, exec_jal target s, ?link, fun r hr => ?regs, hmem, hcontroller, finish_transfers _ target⟩
  case link => rw [hregs, State.setReg_reg_self s 7#3 _ (by decide), State.pcPlusOne_toNat]
  case regs => rw [hregs, State.setReg_reg_ne s 7#3 r _ hr]

end Sys2Proof.Proofs
end
